-- ==== Sys2Proof/Word.lean ====
section
/-! DEFINITION. The value types of the core: the byte, the nibble, the bit position, the command word, and the
two shapes of table (00_scope.md R7, 10_state.md R29). -/

namespace Sys2Proof

/-- A data value, "an 8-bit unsigned integer (0–255)" (R7). -/
abbrev Byte := BitVec 8

/-- A nibble: an S-table index and an S-table value (R7). -/
abbrev Nibble := BitVec 4

/-- A bit position of a byte: a P-rule entry and a P-rule index (R7). -/
abbrev BitPos := BitVec 3

/-- A command word (R61). -/
abbrev Word := BitVec 16

/-- The shape of SBOX and SINV: 16 entries of 4 bits (R22, R24). -/
abbrev STable := Vector Nibble 16

/-- The shape of PBOX and PINV: 8 entries of 3 bits (R23, R25). -/
abbrev PTable := Vector BitPos 8

end Sys2Proof
end

