-- ==== Sys2Proof/Config.lean ====
section
/-! DEFINITION. What stays uninterpreted: the configuration parameters at power-on, and the free values of the
inverse tables before INIT derives them. Constants without a body: no proof can see a value. -/

namespace Sys2Proof

/-- What the `sbox_cfg` port carries at power-on: the parameter SBOX_CFG of R5, packed by R66. The spec keeps it a
parameter (D7, D8). DESIGN CHOICE, log 1. Safe. -/
opaque Config.sboxCfg : BitVec 64

/-- What the `pbox_cfg` port carries at power-on: the parameter PBOX_CFG of R5, packed by R66. DESIGN CHOICE, log 1.
Safe. -/
opaque Config.pboxCfg : BitVec 24

/-- What SINV holds after the reset that took draw `n`: "unspecified" (R24, R160, U5 "any value"). DESIGN CHOICE,
log 2. Unsafe: one value a draw. -/
opaque Config.freeSinv : Nat → Fin 16 → Nibble

/-- What PINV holds after the reset that took draw `n`: "unspecified" (R25, R160, U5 "any value"). DESIGN CHOICE,
log 2. Unsafe: one value a draw. -/
opaque Config.freePinv : Nat → Fin 8 → BitPos

end Sys2Proof
end

