-- ==== Sys2Proof/Syntax.lean ====
section
/-! DEFINITION. The six commands of opcode_table.json (30_encoding.md R63), each with its operand byte (R62). -/

namespace Sys2Proof

/-- One command. The operand is DATA, "used as is" (R62). -/
inductive Instr where
  /-- Forward substitution of both nibbles, `substitute` (R81). -/
  | sub (b : Byte)
  /-- Inverse substitution of both nibbles, `unsubstitute` (R82). -/
  | invsub (b : Byte)
  /-- Forward bit permutation, `permute` (R100). -/
  | perm (b : Byte)
  /-- Inverse bit permutation, `unpermute` (R101). -/
  | invperm (b : Byte)
  /-- Encrypt one byte, `encryptByte` (R120). -/
  | enc (b : Byte)
  /-- Decrypt one byte, `decryptByte` (R121). -/
  | dec (b : Byte)
  deriving DecidableEq, Repr

end Sys2Proof
end

