-- ==== Sys2Proof/WellFormed.lean ====
section
/-! DEFINITION. The checks on what the host hands the core: a command word is legal (30_encoding.md R64), an operand
at a wider boundary is in range (60_exceptions.md R144), a literal of the assembler is in range (R67). Written apart
from the decoder, so that the two can be compared. -/

namespace Sys2Proof

/-- The operand byte of a command. -/
def Instr.operand : Instr → Byte
  | .sub b => b
  | .invsub b => b
  | .perm b => b
  | .invperm b => b
  | .enc b => b
  | .dec b => b

/-- A command is well formed when its operand fits DATA. Its type makes that so: "holds for every command word by
construction" (R62). -/
def Instr.wf (i : Instr) : Bool := decide (i.operand.toNat ≤ 255)

/-- RSVD, bits 15:11, "must be 0" (R61). -/
def rsvdClear (w : Word) : Bool := decide (w.toNat < 2 ^ 11)

/-- OP, bits 10:8, is none of 110 and 111 (R64). -/
def opAssigned (w : Word) : Bool := decide (w.toNat / 2 ^ 8 % 2 ^ 3 < 6)

/-- A legal command word (R63, R64). -/
def legalWord (w : Word) : Bool := rsvdClear w && opAssigned w

/-- An operand of the wide boundary, or an `<imm8>` literal, is in 0..255 (R144, R67). -/
def fitsByte (n : Nat) : Bool := decide (n ≤ 255)

/-- An `<imm16>` literal of `.word` is in 0..65535 (R67). -/
def fitsWord (n : Nat) : Bool := decide (n ≤ 65535)

end Sys2Proof
end

