-- ==== Sys2Proof/Decode.lean ====
section
/-! DEFINITION. The command word's fields, the decoder (total; it rejects by name) and the encoder
(30_encoding.md R61 to R64, R67). -/

namespace Sys2Proof

/-- The operations that OP selects (R63), as the wide boundary and the assembler name them. -/
inductive Op where
  | sub | invsub | perm | invperm | enc | dec
  deriving DecidableEq, Repr

/-- Why a word is no command (R64). -/
inductive DecodeError where
  /-- `cmd[15:11] != 0`. -/
  | reservedBits
  /-- `cmd[10:8]` is 110 or 111. -/
  | reservedOp
  deriving DecidableEq, Repr

/-- RSVD, `cmd[15:11]` (R61). -/
def rsvdField (w : Word) : BitVec 5 := w.extractLsb' 11 5

/-- OP, `cmd[10:8]` (R61). -/
def opField (w : Word) : BitVec 3 := w.extractLsb' 8 3

/-- DATA, `cmd[7:0]` (R61, R62). -/
def dataField (w : Word) : Byte := w.extractLsb' 0 8

/-- The number of an operation (R63; the spec's own choice, D3). -/
def Op.number : Op → BitVec 3
  | .sub => 0b000
  | .invsub => 0b001
  | .perm => 0b010
  | .invperm => 0b011
  | .enc => 0b100
  | .dec => 0b101

/-- The command of an operation with its operand. -/
def Op.instr (op : Op) (b : Byte) : Instr :=
  match op with
  | .sub => .sub b
  | .invsub => .invsub b
  | .perm => .perm b
  | .invperm => .invperm b
  | .enc => .enc b
  | .dec => .dec b

/-- The decoder (R61, R63, R64). -/
def decode (w : Word) : Except DecodeError Instr :=
  if rsvdField w = 0 then
    match opField w with
    | 0b000 => .ok (.sub (dataField w))
    | 0b001 => .ok (.invsub (dataField w))
    | 0b010 => .ok (.perm (dataField w))
    | 0b011 => .ok (.invperm (dataField w))
    | 0b100 => .ok (.enc (dataField w))
    | 0b101 => .ok (.dec (dataField w))
    | _ => .error .reservedOp
  else .error .reservedBits

/-- `asm(m, b) = (OP(m) << 8) | b` (R67). -/
def asm (op : Op) (b : Byte) : Word :=
  (op.number.setWidth 16 <<< 8) ||| b.setWidth 16

/-- The word of a command (R63). -/
def encode : Instr → Word
  | .sub b => asm .sub b
  | .invsub b => asm .invsub b
  | .perm b => asm .perm b
  | .invperm b => asm .invperm b
  | .enc b => asm .enc b
  | .dec b => asm .dec b

/-- The command word of a table row's bits: the low `nbits` bits of `w`, every bit above them 0. The core has one
parallel 16-bit word and no byte order (R42), so bit k of the number is bit k of the word. -/
def tableWord (nbits w : Nat) : Word := BitVec.ofNat 16 (w % 2 ^ nbits)

/-- What the decoder reads from a table row's bits; a row is one 16-bit word (R61), so more bits are no command. -/
def decodeTableWord (nbits w : Nat) : Option Instr :=
  if nbits ≤ 16 then
    match decode (tableWord nbits w) with
    | .ok i => some i
    | .error _ => none
  else none

end Sys2Proof
end

