-- ==== Sys2Proof/Machine/Packing.lean ====
section
/-! DEFINITION. The packing of the configuration buses (30_encoding.md R66; the spec's own choice, D25). -/

namespace Sys2Proof.Machine

/-- `SBOX_CFG[i] = sbox_cfg[4*i+3 : 4*i]` (R66). -/
def unpackS (bus : BitVec 64) : STable := Vector.ofFn fun i => bus.extractLsb' (4 * i.val) 4

/-- `PBOX_CFG[i] = pbox_cfg[3*i+2 : 3*i]` (R66). -/
def unpackP (bus : BitVec 24) : PTable := Vector.ofFn fun i => bus.extractLsb' (3 * i.val) 3

/-- The bus that carries an S table: entry 0 in the least significant nibble (R66). -/
def packS (T : STable) : BitVec 64 :=
  (List.finRange 16).foldl (fun (acc : BitVec 64) (i : Fin 16) => acc ||| (T[i.val].setWidth 64 <<< (4 * i.val))) 0

/-- The bus that carries a P table: entry 0 in the least significant 3 bits (R66). -/
def packP (P : PTable) : BitVec 24 :=
  (List.finRange 8).foldl (fun (acc : BitVec 24) (i : Fin 8) => acc ||| (P[i.val].setWidth 24 <<< (3 * i.val))) 0

end Sys2Proof.Machine
end

