-- ==== Sys2Proof/Machine/State.lean ====
section
/-! DEFINITION. The state of the core (10_state.md), its ports (30_encoding.md R60) and the schedule of its agents
(00_scope.md R10), as plain data; the state after reset; the reasons a step can stop (none does). -/

namespace Sys2Proof.Machine

/-- The error codes of R140. The first three are answered on `rsp`; the last only by the wide boundary (R144). -/
inductive ErrCode where
  /-- INIT found SBOX or PBOX not a bijection (R141). -/
  | configError
  /-- INIT has not yet run since reset (R142). -/
  | notReady
  /-- The word is illegal (R143). -/
  | illegalCommand
  /-- The operand is outside 0..255; "never on the `rsp` port" (R144). -/
  | inputRange
  deriving DecidableEq, Repr

/-- A response (R65). An error "gives the response a code and no result byte" (R146), so it carries none: nothing can
be proved of RESULT there (U4). Safe, log 6. -/
inductive Response where
  | ok (result : Byte)
  | error (e : ErrCode)
  deriving DecidableEq, Repr

/-- What happens next, as the agents of R10 choose it. The schedule is free data: a claim over every state holds for
every order (R47, U9, U11). DESIGN CHOICE, log 3. -/
inductive Event where
  /-- A host issues a command word on `cmd` (R60, R61). -/
  | cmd (w : Word)
  /-- A host calls the wide boundary function `issue(op, n)` (R144). -/
  | issue (op : Op) (n : Nat)
  /-- The initialization sequencer has the turn (R161). -/
  | sequencer
  /-- The host drives the configuration ports (R60, R164). -/
  | drive (sboxCfg : BitVec 64) (pboxCfg : BitVec 24)
  /-- `rst` (R160). -/
  | rst
  /-- `rst` taken while the command `w` is outstanding, which "is discarded without a response" (R163). The other run
  of R163 is `cmd w` followed by `rst`. -/
  | rstDropping (w : Word)
  deriving DecidableEq, Repr

structure State where
  /-- SBOX, the forward substitution table (R22). -/
  sbox : STable
  /-- PBOX, the permutation rule (R23). -/
  pbox : PTable
  /-- SINV, the inverse substitution table (R24). -/
  sinv : STable
  /-- PINV, the inverse permutation rule (R25). -/
  pinv : PTable
  /-- STATUS, whole (R26). -/
  status : Byte
  /-- What the `sbox_cfg` port carries (R60). -/
  sboxCfg : BitVec 64
  /-- What the `pbox_cfg` port carries (R60). -/
  pboxCfg : BitVec 24
  /-- What the `rsp` port answered to the event just taken (R60, R65); a response does not outlive the next event
  (R31). -/
  rsp : Option Response
  /-- The model's own: what the wide boundary reported for the event just taken (R144). -/
  boundary : Option ErrCode
  /-- The model's own: the events still to come, oldest first (R10). -/
  schedule : List Event
  /-- The model's own: the number of free draws taken (U5). -/
  draws : Nat
  deriving DecidableEq, Repr

/-- Why a step stops with a fault: never. The core has no trap mechanism and every command word gets a response
(R146, R64), so there is no constructor. Log 17. -/
inductive Fault where
  deriving DecidableEq, Repr

/-- Why a step is refused. -/
inductive Refusal where
  /-- An instruction with no meaning yet. Raised only by an arm of `exec`; no arm does. Safe. -/
  | notModelled (mnemonic : String)
  deriving DecidableEq, Repr

/-- How a step ends. -/
abbrev Result := Host.Outcome State Fault Refusal

/-- The machine right after reset (R32, R160): the tables latched from the configuration ports, SINV and PINV
unspecified (draw 0), STATUS 0x00, nothing answered and nothing scheduled. -/
def State.reset : State where
  sbox := unpackS Config.sboxCfg
  pbox := unpackP Config.pboxCfg
  sinv := Vector.ofFn (Config.freeSinv 0)
  pinv := Vector.ofFn (Config.freePinv 0)
  status := 0x00
  sboxCfg := Config.sboxCfg
  pboxCfg := Config.pboxCfg
  rsp := none
  boundary := none
  schedule := []
  draws := 1

end Sys2Proof.Machine
end

