-- ==== Sys2Proof/Machine/Boundary.lean ====
section
/-! DEFINITION. The wide boundary function `issue(op, n)` (60_exceptions.md R144; rejection by C1 and D11). -/

namespace Sys2Proof.Machine

/-- The word that `issue(op, n)` forms, or INPUT_RANGE and no word when `n > 255`; never a masked operand (R144). -/
def issueWord (op : Op) (n : Nat) : Except ErrCode Word :=
  if n ≤ 255 then .ok (asm op (BitVec.ofNat 8 n)) else .error .inputRange

end Sys2Proof.Machine
end

