-- ==== Sys2Proof/Machine/Flags.lean ====
section
/-! DEFINITION. The fields of STATUS (10_state.md R26, R27; the layout is the spec's own choice, D24). The core has
no other flags (R28). -/

namespace Sys2Proof.Machine

/-- STATUS.READY, bit 0. -/
def ready (st : Byte) : Bool := st.getLsbD 0

/-- STATUS.CFG_ERR, bit 1. -/
def cfgErr (st : Byte) : Bool := st.getLsbD 1

/-- STATUS.SBOX_BAD, bit 2. -/
def sboxBad (st : Byte) : Bool := st.getLsbD 2

/-- STATUS.PBOX_BAD, bit 3. -/
def pboxBad (st : Byte) : Bool := st.getLsbD 3

/-- What the host reads on the `status` port: bits 7:4 "read as zero" (R26, U8). -/
def State.statusPort (s : State) : Byte := s.status &&& 0x0F#8

/-- STATUS at the end of INIT, from the validity of SBOX and of PBOX: 0x01 when both hold, else
`{0000, !vp, !vs, 1, 0}` (R162). -/
def initStatus (vs vp : Bool) : Byte :=
  if vs && vp then 0x01
  else 0b0000#4 ++ BitVec.ofBool (!vp) ++ BitVec.ofBool (!vs) ++ 0b10#2

/-- INIT is pending "exactly while the phase is UNINIT (STATUS = 0x00)" (R160, C5). -/
def initPending (st : Byte) : Bool := decide (st = 0x00)

end Sys2Proof.Machine
end

