-- ==== Sys2Proof/Machine/Operands.lean ====
section
/-! DEFINITION. The operand's parts and the table reads (40_substitution.md R80, 00_scope.md R8, R9). -/

namespace Sys2Proof.Machine

/-- `nib_hi(b) = (b >> 4) & 0xF`, that is `b[7:4]` (R80). -/
def nibHi (b : Byte) : Nibble := b.extractLsb' 4 4

/-- `nib_lo(b) = b & 0xF`, that is `b[3:0]` (R80). -/
def nibLo (b : Byte) : Nibble := b.extractLsb' 0 4

/-- Entry `i` of an S table: "always in range" (R9, R30). -/
def readS (T : STable) (i : Nibble) : Nibble := T[i.toNat]'i.isLt

/-- Entry `i` of a P table: "always in range" (R9, R30). -/
def readP (P : PTable) (i : BitPos) : BitPos := P[i.toNat]'i.isLt

end Sys2Proof.Machine
end

