-- ==== Sys2Proof/Machine/Response.lean ====
section
/-! DEFINITION. The response word (30_encoding.md R65, 60_exceptions.md R140). -/

namespace Sys2Proof.Machine

/-- The number of an error code (R140; the spec's own choice, D5). -/
def ErrCode.number : ErrCode → BitVec 3
  | .configError => 1
  | .notReady => 2
  | .illegalCommand => 3
  | .inputRange => 4

/-- The CODE field of a response; "0 means OK" (R65). -/
def Response.code : Response → BitVec 3
  | .ok _ => 0
  | .error e => e.number

/-- RESULT, where the response has one (R65, R146). -/
def Response.result : Response → Option Byte
  | .ok r => some r
  | .error _ => none

/-- The words the `rsp` port may carry for a response: bits 15:11 zero, CODE, and RESULT where there is one; the bits
of RESULT are open where there is none (R65). -/
def Response.admits (r : Response) (w : Word) : Bool :=
  decide (w.extractLsb' 11 5 = 0) && decide (w.extractLsb' 8 3 = r.code) &&
    match r with
    | .ok v => decide (w.extractLsb' 0 8 = v)
    | .error _ => true

/-- How a host reads a response word; CODE 5 to 7 and nonzero bits 15:11 are "never produced" (R140, U7), so the model
reads nothing there. -/
def Response.ofWord (w : Word) : Option Response :=
  if w.extractLsb' 11 5 = 0 then
    match w.extractLsb' 8 3 with
    | 0 => some (.ok (w.extractLsb' 0 8))
    | 1 => some (.error .configError)
    | 2 => some (.error .notReady)
    | 3 => some (.error .illegalCommand)
    | _ => none
  else none

end Sys2Proof.Machine
end

