-- ==== Sys2Proof/Machine/Ops.lean ====
section
/-! DEFINITION. The shared operations: the two stages and their inverses, the checks and generators of INIT, the
command prologue, answering a command and raising an error, INIT and reset. -/

namespace Sys2Proof.Machine

/-! The substitution stage. -/

/-- The dual-nibble applicator `{T[b[7:4]], T[b[3:0]]}` (R80). -/
def subst (T : STable) (b : Byte) : Byte := readS T (nibHi b) ++ readS T (nibLo b)

/-! The permutation stage. The sums are exact integer sums (R9), narrowed to a byte at the end. -/

/-- The sum over i in 0..7 of `((b >> P[i]) & 1) << i` (R100). -/
def permSum (P : PTable) (b : Byte) : Nat :=
  ((List.finRange 8).map fun i => ((b.toNat >>> P[i.val].toNat) &&& 1) <<< i.val).sum

/-- `perm(P, b)`, where output bit i is `b[P[i]]` (R100). -/
def perm (P : PTable) (b : Byte) : Byte := BitVec.ofNat 8 (permSum P b)

/-- The sum over i in 0..7 of `((c >> i) & 1) << P[i]` (R101). -/
def unpermSum (P : PTable) (c : Byte) : Nat :=
  ((List.finRange 8).map fun i => ((c.toNat >>> i.val) &&& 1) <<< P[i.val].toNat).sum

/-- `unperm(P, c)`, where output bit `P[i]` is `c[i]`; "used only with a validated PBOX" (R101, C3). Log 16. -/
def unperm (P : PTable) (c : Byte) : Byte := BitVec.ofNat 8 (unpermSum P c)

/-! Validation and the inverse generators. -/

/-- SBOX is a bijection over {0..15}: no value appears twice (R83). -/
def validS (T : STable) : Bool := decide (∀ i j : Fin 16, i ≠ j → T[i.val] ≠ T[j.val])

/-- PBOX is a bijection over {0..7}: no value appears twice (R102). -/
def validP (P : PTable) : Bool := decide (∀ i j : Fin 8, i ≠ j → P[i.val] ≠ P[j.val])

/-- The inverse S-box generator: for x in 0..15, `SINV[SBOX[x]] <- x` (R84). -/
def genSinv (T old : STable) : STable :=
  (List.finRange 16).foldl (fun inv x => inv.set T[x.val].toNat (BitVec.ofNat 4 x.val) T[x.val].isLt) old

/-- The inverse P-box generator: for i in 0..7, `PINV[PBOX[i]] <- i` (R103). -/
def genPinv (P old : PTable) : PTable :=
  (List.finRange 8).foldl (fun inv i => inv.set P[i.val].toNat (BitVec.ofNat 3 i.val) P[i.val].isLt) old

/-! Answering a command. -/

/-- `respond(code, value)`: the command ends with this response; nothing else is written (R9, R28). -/
def respond (r : Response) (s : State) : State := { s with rsp := some r }

/-- `raise E`: the command ends with the error response; "changes no state" (R9, R146). The core has no other way of
taking an exception, and no return from one (R146, R147). -/
def raiseError (e : ErrCode) (s : State) : State := respond (.error e) s

/-- The prologue "run first by every legal command": the error it raises, if any (R80, R141, R142, R145). -/
def prologue (s : State) : Option ErrCode :=
  if cfgErr s.status then some .configError
  else if ready s.status then none
  else some .notReady

/-- A legal command whose result, once the prologue lets it run, is `r`. -/
def complete (r : Byte) (s : State) : Result :=
  match prologue s with
  | some e => .next (raiseError e s)
  | none => .next (respond (.ok r) s)

/-- A word that is no command: the checks of R145 in their order, ILLEGAL_COMMAND last (R143). -/
def completeIllegal (s : State) : Result :=
  match prologue s with
  | some e => .next (raiseError e s)
  | none => .next (raiseError .illegalCommand s)

/-! INIT and reset. -/

/-- INIT (R162). With an invalid table SINV and PINV are not written (R24, R25). -/
def initStep (s : State) : State :=
  let vs := validS s.sbox
  let vp := validP s.pbox
  if vs && vp then
    { s with
      sinv := genSinv s.sbox s.sinv
      pinv := genPinv s.pbox s.pinv
      status := initStatus vs vp }
  else { s with status := initStatus vs vp }

/-- The sequencer's turn: INIT while it is pending, once per reset (R161); otherwise it has nothing to do. -/
def sequencerTurn (s : State) : State :=
  if initPending s.status then initStep s else s

/-- Reset (R160): latch the tables from the configuration ports, leave SINV and PINV unspecified, clear STATUS. -/
def applyReset (s : State) : State :=
  { s with
    sbox := unpackS s.sboxCfg
    pbox := unpackP s.pboxCfg
    sinv := Vector.ofFn (Config.freeSinv s.draws)
    pinv := Vector.ofFn (Config.freePinv s.draws)
    status := 0x00
    draws := s.draws + 1 }

/-- The host drives the configuration ports; nothing samples them before a reset (R51, R164). -/
def drivePorts (sboxCfg : BitVec 64) (pboxCfg : BitVec 24) (s : State) : State :=
  { s with sboxCfg := sboxCfg, pboxCfg := pboxCfg }

end Sys2Proof.Machine
end

