-- ==== Sys2Proof/Machine/Cipher.lean ====
section
/-! DEFINITION. The meanings of ENC and DEC (42_cipher.md). -/

namespace Sys2Proof.Machine

/-- ENC: `t = subst(SBOX, b)`, then `respond(OK, perm(PBOX, t))` (R120). -/
def execEnc (b : Byte) (s : State) : Result := complete (perm s.pbox (subst s.sbox b)) s

/-- DEC: `t = unperm(PBOX, c)`, then `respond(OK, subst(SINV, t))` (R121). -/
def execDec (c : Byte) (s : State) : Result := complete (subst s.sinv (unperm s.pbox c)) s

end Sys2Proof.Machine
end

