-- ==== Sys2Proof/Machine/Permutation.lean ====
section
/-! DEFINITION. The meanings of PERM and INVPERM (41_permutation.md). -/

namespace Sys2Proof.Machine

/-- PERM: `respond(OK, perm(PBOX, b))` (R100). -/
def execPerm (b : Byte) (s : State) : Result := complete (perm s.pbox b) s

/-- INVPERM: `respond(OK, unperm(PBOX, c))` (R101). -/
def execInvperm (c : Byte) (s : State) : Result := complete (unperm s.pbox c) s

end Sys2Proof.Machine
end

