-- ==== Sys2Proof/Machine/Substitution.lean ====
section
/-! DEFINITION. The meanings of SUB and INVSUB (40_substitution.md). -/

namespace Sys2Proof.Machine

/-- SUB: `respond(OK, subst(SBOX, b))` (R81). -/
def execSub (b : Byte) (s : State) : Result := complete (subst s.sbox b) s

/-- INVSUB: `respond(OK, subst(SINV, c))` (R82). -/
def execInvsub (c : Byte) (s : State) : Result := complete (subst s.sinv c) s

end Sys2Proof.Machine
end

