-- ==== Sys2Proof/Machine/Dispatch.lean ====
section
/-! DEFINITION. One command to its meaning (30_encoding.md R63, 60_exceptions.md R145). -/

namespace Sys2Proof.Machine

/-- The datapath's step for one command. -/
def exec (i : Instr) (s : State) : Host.Outcome State Fault Refusal :=
  match i with
  | .sub b => Sys2Proof.Machine.execSub b s
  | .invsub b => Sys2Proof.Machine.execInvsub b s
  | .perm b => Sys2Proof.Machine.execPerm b s
  | .invperm b => Sys2Proof.Machine.execInvperm b s
  | .enc b => Sys2Proof.Machine.execEnc b s
  | .dec b => Sys2Proof.Machine.execDec b s

end Sys2Proof.Machine
end

