-- ==== Sys2Proof/Machine/Schedule.lean ====
section
/-! DEFINITION. Taking one event: which agent moves and what it does (00_scope.md R10). -/

namespace Sys2Proof.Machine

/-- What every step does before its event acts: the events after it remain, and the last answers are gone (R31). -/
def State.taking (s : State) (rest : List Event) : State :=
  { s with rsp := none, boundary := none, schedule := rest }

/-- The core accepts a command word (R145): a legal word runs its command; any other is answered by the same checks
and then ILLEGAL_COMMAND. -/
def acceptWord (w : Word) (s : State) : Result :=
  match decode w with
  | .ok i => exec i s
  | .error _ => completeIllegal s

/-- A call of the wide boundary: out of range, INPUT_RANGE is reported, no word is formed and no state changes; in
range, the word it forms is issued (R144). -/
def callBoundary (op : Op) (n : Nat) (s : State) : Result :=
  match issueWord op n with
  | .ok w => acceptWord w s
  | .error e => .next { s with boundary := some e }

/-- One event. -/
def takeEvent (e : Event) (s : State) : Result :=
  match e with
  | .cmd w => acceptWord w s
  | .issue op n => callBoundary op n s
  | .sequencer => .next (sequencerTurn s)
  | .drive sboxCfg pboxCfg => .next (drivePorts sboxCfg pboxCfg s)
  | .rst => .next (applyReset s)
  | .rstDropping _ => .next (applyReset s)

/-- One step: the next scheduled event; with nothing scheduled the sequencer has the turn, so that a pending INIT is
not put off for ever (R161, D15). Log 4. -/
def advance (s : State) : Result :=
  match s.schedule with
  | [] => .next (sequencerTurn (s.taking []))
  | e :: rest => takeEvent e (s.taking rest)

/-- A command word issued as the very next event. -/
def issueNext (w : Word) (s : State) : State := { s with schedule := .cmd w :: s.schedule }

end Sys2Proof.Machine
end

