-- ==== Sys2Proof/Machine/Step.lean ====
section
/-! DEFINITION. One step of the machine, and the host's placing of a command word. -/

namespace Sys2Proof.Machine

/-- One atomic step of one agent (R10, R168). -/
def step (s : State) : Host.Outcome State Fault Refusal := advance s

/-- The core fetches no instructions; "the program is the sequence of command words the host issues" (R21). The word is
issued as the very next event. Log 8. -/
def State.withFetchWord (s : State) (nbits w : Nat) : State := issueNext (tableWord nbits w) s

end Sys2Proof.Machine
end

