-- ==== Sys2Proof/Machine/Assembler.lean ====
section
/-! DEFINITION. The assembler syntax of 30_encoding.md R67 (the spec's own choice, D19), over lists of characters. It
stands on the host's side: the core itself sees words only. What R67 leaves open (blank lines, spaces and tabs, letter
case of hex digits) is in log 13. -/

namespace Sys2Proof.Machine

/-- Why a line is refused. -/
inductive AsmError where
  /-- The first part is no mnemonic of R67 and not `.word`. -/
  | unknownMnemonic
  /-- The literal is not decimal, `0x` hex or `0b` binary. -/
  | badLiteral
  /-- The literal is outside 0..255 (0..65535 for `.word`): refused, never masked. -/
  | outOfRange
  /-- Not one mnemonic and one literal. -/
  | malformed
  deriving DecidableEq, Repr

/-- The value of a digit character in a base. -/
def digitValue (base : Nat) (c : Char) : Option Nat :=
  let n := c.toNat
  let v :=
    if 48 ≤ n ∧ n ≤ 57 then n - 48
    else if 97 ≤ n ∧ n ≤ 102 then n - 87
    else if 65 ≤ n ∧ n ≤ 70 then n - 55
    else base
  if v < base then some v else none

/-- The value of a digit string, the first digit highest, on top of the value read so far. -/
def digitsValue (base : Nat) : List Char → Nat → Option Nat
  | [], acc => some acc
  | c :: cs, acc =>
    match digitValue base c with
    | some v => digitsValue base cs (acc * base + v)
    | none => none

/-- A nonempty digit string. -/
def numberValue (base : Nat) : List Char → Option Nat
  | [] => none
  | c :: cs => digitsValue base (c :: cs) 0

/-- "a decimal, `0x` hex or `0b` binary literal" (R67). -/
def literalValue : List Char → Option Nat
  | '0' :: 'x' :: cs => numberValue 16 cs
  | '0' :: 'b' :: cs => numberValue 2 cs
  | cs => numberValue 10 cs

/-- The mnemonics, "written in lower case" (R67). -/
def mnemonicOp (cs : List Char) : Option Op :=
  if cs = ['s', 'u', 'b'] then some .sub
  else if cs = ['i', 'n', 'v', 's', 'u', 'b'] then some .invsub
  else if cs = ['p', 'e', 'r', 'm'] then some .perm
  else if cs = ['i', 'n', 'v', 'p', 'e', 'r', 'm'] then some .invperm
  else if cs = ['e', 'n', 'c'] then some .enc
  else if cs = ['d', 'e', 'c'] then some .dec
  else none

/-- "A `;` starts a comment" (R67). -/
def stripComment (line : List Char) : List Char := line.takeWhile fun c => c ≠ ';'

/-- The parts of a line between spaces and tabs; `cur` is the part read so far, reversed. -/
def splitParts : List Char → List Char → List (List Char)
  | [], cur => if cur.isEmpty then [] else [cur.reverse]
  | c :: cs, cur =>
    if c = ' ' ∨ c = '\t' then
      if cur.isEmpty then splitParts cs [] else cur.reverse :: splitParts cs []
    else splitParts cs (c :: cur)

/-- A line's word from its parts: `<mnemonic> <imm8>` or `.word <imm16>`; an empty line has none (R67). -/
def assembleParts : List (List Char) → Except AsmError (Option Word)
  | [] => .ok none
  | [m, lit] =>
    if m = ['.', 'w', 'o', 'r', 'd'] then
      match literalValue lit with
      | none => .error .badLiteral
      | some n => if fitsWord n then .ok (some (BitVec.ofNat 16 n)) else .error .outOfRange
    else
      match mnemonicOp m with
      | none => .error .unknownMnemonic
      | some op =>
        match literalValue lit with
        | none => .error .badLiteral
        | some n => if fitsByte n then .ok (some (asm op (BitVec.ofNat 8 n))) else .error .outOfRange
  | _ => .error .malformed

/-- One line of a listing. -/
def assembleLine (line : List Char) : Except AsmError (Option Word) :=
  assembleParts (splitParts (stripComment line) [])

/-- A listing, "one command per line" (R67): the words in order, or the first refusal. -/
def assemble : List (List Char) → Except AsmError (List Word)
  | [] => .ok []
  | line :: rest =>
    match assembleLine line, assemble rest with
    | .error e, _ => .error e
    | .ok _, .error e => .error e
    | .ok none, .ok ws => .ok ws
    | .ok (some w), .ok ws => .ok (w :: ws)

end Sys2Proof.Machine
end

