-- ==== Sys2Proof/Safety.lean ====
section
/-! DEFINITION. The terms claims use: the phases and the state invariant (10_state.md R27, 70_reset_and_hazards.md
R162), what one state keeps of another, the result of a command, the source instance. -/

namespace Sys2Proof.Machine

/-- The phases of R27. -/
inductive Phase where
  | uninit | ready | failed
  deriving DecidableEq, Repr

/-- The phase that STATUS records (R27); any other value is none. -/
def phaseOf (st : Byte) : Option Phase :=
  if st = 0x00 then some .uninit
  else if st = 0x01 then some .ready
  else if st = 0x06 ∨ st = 0x0A ∨ st = 0x0E then some .failed
  else none

/-- What holds of the core in every phase (R27, R83 to R85, R102, R103, R162). -/
structure Inv (s : State) : Prop where
  /-- STATUS is one of the field combinations of R27. -/
  phase_legal : (phaseOf s.status).isSome = true
  /-- In phase READY both tables are valid. -/
  ready_valid : s.status = 0x01 → validS s.sbox = true ∧ validP s.pbox = true
  /-- In phase READY SINV inverts SBOX. -/
  ready_sinv : s.status = 0x01 → ∀ x : Nibble, readS s.sinv (readS s.sbox x) = x
  /-- In phase READY PINV inverts PBOX. -/
  ready_pinv : s.status = 0x01 → ∀ i : BitPos, readP s.pinv (readP s.pbox i) = i
  /-- In phase FAILED the two fields name the invalid tables. -/
  failed_names : cfgErr s.status = true →
    sboxBad s.status = !validS s.sbox ∧ pboxBad s.status = !validP s.pbox

/-- The core's own state, all of it (R29, R26), is the same. -/
structure SameCore (s t : State) : Prop where
  sbox : t.sbox = s.sbox
  pbox : t.pbox = s.pbox
  sinv : t.sinv = s.sinv
  pinv : t.pinv = s.pinv
  status : t.status = s.status

/-- The event is a reset (R160, R163). -/
def Event.isReset : Event → Bool
  | .rst => true
  | .rstDropping _ => true
  | _ => false

/-- RESULT of a command in a state, where its response has one: what the laws write `SUB(b)`, `ENC(b)` and so on
(R88). -/
def resultOf (i : Instr) (s : State) : Option Byte :=
  match exec i s with
  | .next t => t.rsp.bind Response.result
  | .fault _ => none
  | .refused _ => none

/-- The host has these events to come. -/
def State.facing (s : State) (events : List Event) : State := { s with schedule := events }

/-- `k` steps one after another, ended by a fault or a refusal if there were one; the host's `Core.run`. -/
def steps : Nat → State → Result
  | 0, s => .next s
  | k + 1, s =>
    match step s with
    | .next t => steps k t
    | .fault r => .fault r
    | .refused r => .refused r

/-- The source instance (R6): the one rule and the four known S entries; the other twelve are open (D7). Always a
premise, "not axioms of the model" (D8). -/
structure SourceInstance (T : STable) (P : PTable) : Prop where
  rule : P = #v[1, 5, 2, 0, 3, 7, 4, 6]
  s0 : readS T 0 = 0x3
  s5 : readS T 5 = 0x6
  s10 : readS T 10 = 0x9
  s15 : readS T 15 = 0x4

/-- The number of 1 bits of a byte (R106). -/
def ones (b : Byte) : Nat := (List.finRange 8).countP fun i => b.getLsbD i.val

end Sys2Proof.Machine
end

