-- ==== Sys2Proof/Certificates/Slice0/Obligations.lean ====
section
/-! DEFINITION. The statements for the provers. A response is written into `rsp`; `s.facing es` is `s` with the events
`es` to come, and `s.taking rest` is `s` with the last answers gone and `rest` to come (Machine/Schedule.lean). Numbers
of operations and codes, the layout of STATUS and the packing are the spec's own choices (D2 to D5, D24, D25), cited
by their rules. -/

open Sys2Proof Sys2Proof.Machine

/-! Encoding. -/

/-- Decoding a command's word gives the command back, for every command and operand (30_encoding.md R61 to R63). -/
def Obligations.DecodeOfEncodeIsTheCommand : Prop :=
  ∀ i : Instr, decode (encode i) = .ok i

/-- Each legal word has one meaning: a word that decodes is the word of its command (30_encoding.md R61 to R64). -/
def Obligations.EncodeOfDecodeIsTheWord : Prop :=
  ∀ (w : Word) (i : Instr), decode w = .ok i → encode i = w

/-- 30_encoding.md R63: the OP numbers, and "a decoder matches `cmd & 0xFF00` against `OP << 8`", the operand being
`cmd[7:0]`. The numbers are the spec's own choice (D3). The last clause, that every legal word is `(OP << 8) | DATA` with
OP in 0..5, is a sentence the spec marks as derived (from R61); the count 1536 in that sentence is not stated. -/
def Obligations.OpFieldSelectsTheOperation : Prop :=
  (Op.sub.number = 0 ∧ Op.invsub.number = 1 ∧ Op.perm.number = 2 ∧ Op.invperm.number = 3 ∧ Op.enc.number = 4 ∧
    Op.dec.number = 5) ∧
  (∀ b : Byte, Op.sub.instr b = .sub b ∧ Op.invsub.instr b = .invsub b ∧ Op.perm.instr b = .perm b ∧
    Op.invperm.instr b = .invperm b ∧ Op.enc.instr b = .enc b ∧ Op.dec.instr b = .dec b) ∧
  (∀ (w : Word) (op : Op), decode w = .ok (op.instr (w.setWidth 8)) ↔
    w &&& 0xFF00#16 = op.number.setWidth 16 <<< 8) ∧
  ∀ w : Word, (∃ i, decode w = .ok i) → ∃ (op : Op) (b : Byte), w = (op.number.setWidth 16 <<< 8) ||| b.setWidth 16

/-- R64 and R143: which words are illegal, that every word is a command or illegal, and that in phase READY an illegal
word is answered ILLEGAL_COMMAND with nothing computed and no state changed (the spec's own choice, D17). -/
def Obligations.IllegalWordsAreAnsweredAndChangeNothing : Prop :=
  (∀ w : Word, (∃ e, decode w = .error e) ↔
    (w.extractLsb' 11 5 ≠ 0 ∨ w.extractLsb' 8 3 = 6 ∨ w.extractLsb' 8 3 = 7)) ∧
  (∀ w : Word, (∃ i, decode w = .ok i) ∨ ∃ e, decode w = .error e) ∧
  ∀ (s : State) (w : Word) (rest : List Event), cfgErr s.status = false → ready s.status = true →
    (w.extractLsb' 11 5 ≠ 0 ∨ w.extractLsb' 8 3 = 6 ∨ w.extractLsb' 8 3 = 7) →
    step (s.facing (.cmd w :: rest)) =
      .next { s with rsp := some (.error .illegalCommand), boundary := none, schedule := rest }

/-- A few words written out from R61 and R63 (and 95_test_vectors.md) decode to what they stand for. -/
def Obligations.WrittenOutWordsDecode : Prop :=
  decode 0b0000000000000000 = .ok (.sub 0x00) ∧ decode 0b0000000101000100 = .ok (.invsub 0x44) ∧
  decode 0b0000001000000001 = .ok (.perm 0x01) ∧ decode 0b0000001100001000 = .ok (.invperm 0x08) ∧
  decode 0b0000010010100101 = .ok (.enc 0xA5) ∧ decode 0b0000010101100101 = .ok (.dec 0x65) ∧
  decode 0x0600 = .error .reservedOp ∧ decode 0x07FF = .error .reservedOp ∧
  decode 0x0800 = .error .reservedBits ∧ decode 0x8400 = .error .reservedBits

/-- R66: bit k of entry i of a table is bit 4i+k (3i+k) of its bus, and packing a table and unpacking the bus gives
the table back. -/
def Obligations.ConfigurationBusesCarryTheTables : Prop :=
  (∀ (bus : BitVec 64) (i : Fin 16) (k : Fin 4), (unpackS bus)[i.val].getLsbD k.val = bus.getLsbD (4 * i.val + k.val)) ∧
  (∀ (bus : BitVec 24) (i : Fin 8) (k : Fin 3), (unpackP bus)[i.val].getLsbD k.val = bus.getLsbD (3 * i.val + k.val)) ∧
  (∀ T : STable, unpackS (packS T) = T) ∧ ∀ P : PTable, unpackP (packP P) = P

/-- 30_encoding.md R67: a line of a mnemonic and a literal assembles to `(OP(m) << 8) | b`; a literal above 255 is
refused and never masked; the word decodes to the mnemonic's command. -/
def Obligations.AssemblerRefusesWideLiterals : Prop :=
  (∀ (m lit : List Char) (op : Op) (n : Nat), mnemonicOp m = some op → literalValue lit = some n →
    assembleParts [m, lit] = if n ≤ 255 then .ok (some (asm op (BitVec.ofNat 8 n))) else .error .outOfRange) ∧
  ∀ (op : Op) (b : Byte), decode (asm op b) = .ok (op.instr b)

/-! The commands. -/

/-- R80: `subst` is `(T[(b >> 4) & 0xF] << 4) | T[b & 0xF]`, and the prologue of every command raises CONFIG_ERROR
while CFG_ERR = 1, else NOT_READY while READY = 0; raising it changes no state. -/
def Obligations.PrologueStopsEveryCommand : Prop :=
  (∀ (T : STable) (b : Byte), subst T b =
    ((readS T ((b >>> 4 &&& 0x0F#8).setWidth 4)).setWidth 8 <<< 4) ||| (readS T ((b &&& 0x0F#8).setWidth 4)).setWidth 8) ∧
  ∀ (i : Instr) (s : State),
    (cfgErr s.status = true → exec i s = .next { s with rsp := some (.error .configError) }) ∧
    (cfgErr s.status = false → ready s.status = false → exec i s = .next { s with rsp := some (.error .notReady) })

/-- R81, SUB: its word, its result, that only the response is written, its errors, its corner cases and its example.
The corner case that the spec marks as derived (distinct inputs, distinct outputs) follows from R88 and is stated
there. -/
def Obligations.SubSubstitutesBothNibbles : Prop :=
  ∀ (s : State) (b : Byte),
    decode (0x00#8 ++ b) = .ok (.sub b) ∧
    (cfgErr s.status = false → ready s.status = true →
      exec (.sub b) s = .next { s with rsp := some (.ok
        (((readS s.sbox ((b >>> 4).setWidth 4)).setWidth 8 <<< 4) ||| (readS s.sbox (b.setWidth 4)).setWidth 8)) } ∧
      exec (.sub 0x00) s = .next { s with rsp := some (.ok (readS s.sbox 0 ++ readS s.sbox 0)) } ∧
      exec (.sub 0xFF) s = .next { s with rsp := some (.ok (readS s.sbox 15 ++ readS s.sbox 15)) } ∧
      (∀ n : Nibble, ∃ m : Nibble, exec (.sub (n ++ n)) s = .next { s with rsp := some (.ok (m ++ m)) }) ∧
      (SourceInstance s.sbox s.pbox → exec (.sub 0x00) s = .next { s with rsp := some (.ok 0x33) })) ∧
    (cfgErr s.status = true → exec (.sub b) s = .next { s with rsp := some (.error .configError) }) ∧
    (cfgErr s.status = false → ready s.status = false →
      exec (.sub b) s = .next { s with rsp := some (.error .notReady) }) ∧
    ∃ (T : STable) (c : Byte), validS T = true ∧ subst T c ≠ c

/-- 40_substitution.md R82, INVSUB: its word, and in phase READY its result `{SINV[c[7:4]], SINV[c[3:0]]}` with only
the response written. -/
def Obligations.InvsubReadsTheInverseTable : Prop :=
  ∀ (s : State) (c : Byte),
    decode (0x01#8 ++ c) = .ok (.invsub c) ∧
    (cfgErr s.status = false → ready s.status = true →
      exec (.invsub c) s = .next { s with rsp := some (.ok
        (((readS s.sinv ((c >>> 4).setWidth 4)).setWidth 8 <<< 4) ||| (readS s.sinv (c.setWidth 4)).setWidth 8)) })

/-- 41_permutation.md R100, PERM: its word, and in phase READY a result whose bit i is `b[PBOX[i]]`, with only the
response written. -/
def Obligations.PermGathersBits : Prop :=
  ∀ (s : State) (b : Byte),
    decode (0x02#8 ++ b) = .ok (.perm b) ∧
    (cfgErr s.status = false → ready s.status = true →
      ∃ r : Byte, exec (.perm b) s = .next { s with rsp := some (.ok r) } ∧
        ∀ i : Fin 8, r.getLsbD i.val = b.getLsbD s.pbox[i.val].toNat)

/-- 41_permutation.md R101, INVPERM: its word, and in phase READY a response OK, with only the response written; with
a valid PBOX its bit `PBOX[i]` is `c[i]`. With an invalid PBOX, which no READY state of a run has (R101, C3), the
result is the model's own (log 16) and nothing is claimed of it. -/
def Obligations.InvpermScattersBits : Prop :=
  ∀ (s : State) (c : Byte),
    decode (0x03#8 ++ c) = .ok (.invperm c) ∧
    (cfgErr s.status = false → ready s.status = true →
      ∃ r : Byte, exec (.invperm c) s = .next { s with rsp := some (.ok r) } ∧
        (validP s.pbox = true → ∀ i : Fin 8, r.getLsbD s.pbox[i.val].toNat = c.getLsbD i.val))

/-- 42_cipher.md R120, ENC: its word, and in phase READY the permutation of what SUB answers, with only the response
written; the order of the stages matters. -/
def Obligations.EncIsPermAfterSub : Prop :=
  (∀ (s : State) (b : Byte),
    decode (0x04#8 ++ b) = .ok (.enc b) ∧
    (cfgErr s.status = false → ready s.status = true →
      ∃ t r : Byte, exec (.sub b) s = .next { s with rsp := some (.ok t) } ∧
        exec (.enc b) s = .next { s with rsp := some (.ok r) } ∧
        ∀ i : Fin 8, r.getLsbD i.val = t.getLsbD s.pbox[i.val].toNat)) ∧
  ∃ (T : STable) (P : PTable) (b : Byte), validS T = true ∧ validP P = true ∧
    perm P (subst T b) ≠ subst T (perm P b)

/-- 42_cipher.md R121, DEC: its word, and in phase READY what INVSUB answers to what INVPERM answers, with only the
response written. -/
def Obligations.DecIsInvsubAfterInvperm : Prop :=
  ∀ (s : State) (c : Byte),
    decode (0x05#8 ++ c) = .ok (.dec c) ∧
    (cfgErr s.status = false → ready s.status = true →
      ∃ t r : Byte, exec (.invperm c) s = .next { s with rsp := some (.ok t) } ∧
        exec (.dec c) s = .next { s with rsp := some (.ok r) } ∧
        r.extractLsb' 4 4 = readS s.sinv (t.extractLsb' 4 4) ∧
        r.extractLsb' 0 4 = readS s.sinv (t.extractLsb' 0 4))

/-- The frame of all six commands (10_state.md R28, R20): whenever one answers a next state, only the response
differs, and there is a response. -/
def Obligations.CommandsWriteOnlyTheResponse : Prop :=
  ∀ (i : Instr) (s t : State), exec i s = .next t →
    t.rsp ≠ none ∧ t.sbox = s.sbox ∧ t.pbox = s.pbox ∧ t.sinv = s.sinv ∧ t.pinv = s.pinv ∧ t.status = s.status ∧
    t.sboxCfg = s.sboxCfg ∧ t.pboxCfg = s.pboxCfg ∧ t.boundary = s.boundary ∧ t.schedule = s.schedule ∧
    t.draws = s.draws

/-- 10_state.md R29, 41_permutation.md R108: which tables a command reads. PERM and INVPERM never read SBOX or SINV, SUB
and INVSUB read one S table and no P table, and no command reads PINV. For INVPERM and DEC that last point is the
model's choice (log 16): it scatters through PBOX, where the spec also allows a gather through PINV (R25, R29, R104,
U12). -/
def Obligations.CommandsReadOnlyTheirTables : Prop :=
  ∀ (s : State) (T U : STable) (P Q : PTable) (b : Byte),
    resultOf (.sub b) { s with pbox := P, sinv := U, pinv := Q } = resultOf (.sub b) s ∧
    resultOf (.invsub b) { s with sbox := T, pbox := P, pinv := Q } = resultOf (.invsub b) s ∧
    resultOf (.perm b) { s with sbox := T, sinv := U, pinv := Q } = resultOf (.perm b) s ∧
    resultOf (.invperm b) { s with sbox := T, sinv := U, pinv := Q } = resultOf (.invperm b) s ∧
    resultOf (.enc b) { s with sinv := U, pinv := Q } = resultOf (.enc b) s ∧
    resultOf (.dec b) { s with sbox := T, pinv := Q } = resultOf (.dec b) s

/-- The examples S2 to S4 of 95_test_vectors.md section 1, with the instance as a named premise (R6, D8) and any
completion of its S table (D7). SUB 0xFF, INVSUB 0x44, PERM 0x01 and INVPERM 0x08 are the source's worked examples. The
byte 0x65 of ENC 0xA5 and DEC 0x65 is not: the source leaves it as "some fixed byte X" (N10), and 0x65 is the value the
spec marks as derived (from R100). -/
def Obligations.SourceInstanceExamplesHold : Prop :=
  ∀ s : State, Inv s → s.status = 0x01 → SourceInstance s.sbox s.pbox →
    exec (.sub 0xFF) s = .next { s with rsp := some (.ok 0x44) } ∧
    exec (.invsub 0x44) s = .next { s with rsp := some (.ok 0xFF) } ∧
    exec (.perm 0x01) s = .next { s with rsp := some (.ok 0x08) } ∧
    exec (.invperm 0x08) s = .next { s with rsp := some (.ok 0x01) } ∧
    exec (.enc 0xA5) s = .next { s with rsp := some (.ok 0x65) } ∧
    exec (.dec 0x65) s = .next { s with rsp := some (.ok 0xA5) }

/-! Accepting a command word. -/

/-- A step runs the decoded command: when the next event is a word that decodes to i, the step is `exec i` on the
state with the event taken and the last answers gone; and a word placed by `withFetchWord` is that next event (the
model's own, log 8). -/
def Obligations.StepRunsTheDecodedCommand : Prop :=
  (∀ (s : State) (w : Word) (i : Instr) (rest : List Event), decode w = .ok i →
    step (s.facing (.cmd w :: rest)) = exec i (s.taking rest)) ∧
  ∀ (s : State) (w : Word) (i : Instr), decode w = .ok i →
    step (s.withFetchWord 16 w.toNat) = exec i (s.taking s.schedule)

/-- 60_exceptions.md R145: the checks on a command word, in their order, and the case on OP (the order is the spec's own
choice, D12); INPUT_RANGE is decided before a word exists, whatever the phase, by the boundary function that the model
offers by its own choice (log 10). -/
def Obligations.ChecksRunInOrder : Prop :=
  (∀ (s : State) (op : Op) (n : Nat) (rest : List Event), 255 < n → step (s.facing (.issue op n :: rest)) =
    .next { s with rsp := none, boundary := some .inputRange, schedule := rest }) ∧
  ∀ (s : State) (w : Word) (rest : List Event),
    step (s.facing (.cmd w :: rest)) =
      if cfgErr s.status = true then
        .next { s with rsp := some (.error .configError), boundary := none, schedule := rest }
      else if ready s.status = false then
        .next { s with rsp := some (.error .notReady), boundary := none, schedule := rest }
      else if w.extractLsb' 11 5 ≠ 0 ∨ w.extractLsb' 8 3 = 6 ∨ w.extractLsb' 8 3 = 7 then
        .next { s with rsp := some (.error .illegalCommand), boundary := none, schedule := rest }
      else if w.extractLsb' 8 3 = 0 then exec (.sub (w.extractLsb' 0 8)) (s.taking rest)
      else if w.extractLsb' 8 3 = 1 then exec (.invsub (w.extractLsb' 0 8)) (s.taking rest)
      else if w.extractLsb' 8 3 = 2 then exec (.perm (w.extractLsb' 0 8)) (s.taking rest)
      else if w.extractLsb' 8 3 = 3 then exec (.invperm (w.extractLsb' 0 8)) (s.taking rest)
      else if w.extractLsb' 8 3 = 4 then exec (.enc (w.extractLsb' 0 8)) (s.taking rest)
      else exec (.dec (w.extractLsb' 0 8)) (s.taking rest)

/-- Every word, legal or not, in every phase, gets exactly one response and writes nothing else (20_memory.md R45,
60_exceptions.md R146, R149). -/
def Obligations.EveryWordGetsOneResponse : Prop :=
  ∀ (s : State) (w : Word) (rest : List Event), ∃ r : Response,
    step (s.facing (.cmd w :: rest)) = .next { s with rsp := some r, boundary := none, schedule := rest }

/-- R65: the response word. An OK response is exactly `{00000, 000, RESULT}`; an error response is `{00000, CODE, any}`
with RESULT left open; a host that reads a word of a response on `rsp` reads that response; every command word gives
one. -/
def Obligations.ResponseWordCarriesCodeAndResult : Prop :=
  (∀ (v : Byte) (w : Word), (Response.ok v).admits w = true ↔ w = 0b00000#5 ++ 0b000#3 ++ v) ∧
  (∀ (e : ErrCode) (w : Word), (Response.error e).admits w = true ↔ ∃ x : Byte, w = 0b00000#5 ++ e.number ++ x) ∧
  (∀ (r : Response) (w : Word), r ≠ .error .inputRange → (r.admits w = true ↔ Response.ofWord w = some r)) ∧
  ∀ (s : State) (w : Word) (rest : List Event), ∃ (r : Response) (t : State),
    step (s.facing (.cmd w :: rest)) = .next t ∧ t.rsp = some r

/-- 60_exceptions.md R140: the codes' numbers; INPUT_RANGE is never answered on `rsp`, 5 to 7 are never produced, and
every legal command in phase READY is answered OK. -/
def Obligations.CodesOnTheResponsePort : Prop :=
  (ErrCode.configError.number = 1 ∧ ErrCode.notReady.number = 2 ∧ ErrCode.illegalCommand.number = 3 ∧
    ErrCode.inputRange.number = 4) ∧
  (∀ (s t : State) (r : Response), step s = .next t → t.rsp = some r → r.code.toNat ≤ 3) ∧
  ∀ (s : State) (i : Instr), cfgErr s.status = false → ready s.status = true →
    ∃ v : Byte, exec i s = .next { s with rsp := some (.ok v) }

/-- R142: in phase UNINIT (READY = 0 and CFG_ERR = 0) every command word, legal or not, completes with NOT_READY and
changes no state (the spec's own choice, D10). -/
def Obligations.NotReadyBeforeInit : Prop :=
  ∀ (s : State) (w : Word) (rest : List Event), ready s.status = false → cfgErr s.status = false →
    step (s.facing (.cmd w :: rest)) =
      .next { s with rsp := some (.error .notReady), boundary := none, schedule := rest }

/-- R141: detection by INIT, effect on every command word, and that no step but a reset clears it. -/
def Obligations.ConfigErrorIsDetectedAndFatal : Prop :=
  (∀ (s : State) (rest : List Event), s.status = 0x00 → (validS s.sbox = false ∨ validP s.pbox = false) →
    ∃ t, step (s.facing (.sequencer :: rest)) = .next t ∧ cfgErr t.status = true ∧ ready t.status = false ∧
      sboxBad t.status = !validS s.sbox ∧ pboxBad t.status = !validP s.pbox) ∧
  (∀ (s : State) (w : Word) (rest : List Event), cfgErr s.status = true →
    step (s.facing (.cmd w :: rest)) =
      .next { s with rsp := some (.error .configError), boundary := none, schedule := rest }) ∧
  ∀ (s t : State), cfgErr s.status = true → (∀ e rest, s.schedule = e :: rest → e.isReset = false) →
    step s = .next t → t.status = s.status

/-- The wide boundary of 60_exceptions.md R144. An operand above 255 is rejected with INPUT_RANGE, no word is formed and
no state changes; any other is never masked. That the model offers the function at all, and that an operand up to 255 is
issued as its word in the same step, is the model's choice (log 10). -/
def Obligations.BoundaryRejectsWideOperands : Prop :=
  ∀ (s : State) (op : Op) (n : Nat) (rest : List Event),
    (255 < n → step (s.facing (.issue op n :: rest)) =
      .next { s with rsp := none, boundary := some .inputRange, schedule := rest }) ∧
    (n ≤ 255 → ∃ b : Byte, b.toNat = n ∧ step (s.facing (.issue op n :: rest)) =
      step (s.facing (.cmd ((op.number.setWidth 16 <<< 8) ||| b.setWidth 16) :: rest)))

/-- A command leaves no trace (10_state.md R20, R31; 60_exceptions.md R147): whatever word was issued, the step after
it is the step the core would have taken without it. -/
def Obligations.CommandLeavesNoTrace : Prop :=
  ∀ (s : State) (w : Word) (rest : List Event), ∃ t, step (s.facing (.cmd w :: rest)) = .next t ∧
    step t = step (s.facing rest)

/-- 20_memory.md R47: commands are taken one at a time in their order, and after any number of them the core is the
same and takes its next event as if they had not been issued. -/
def Obligations.CommandsAreIndependentOfHistory : Prop :=
  ∀ (words : List Word) (s : State) (later : List Event), ∃ t : State,
    steps words.length (s.facing (words.map Event.cmd ++ later)) = .next t ∧
    SameCore s t ∧ t.schedule = later ∧ step t = step (s.facing later)

/-- R124: a response is a function of the command word, SBOX, PBOX and STATUS alone, and repeating the command gives
the same response. -/
def Obligations.ResponseDependsOnWordTablesAndStatus : Prop :=
  ∀ (s s' : State) (w : Word) (rest rest' : List Event), Inv s → Inv s' →
    s.sbox = s'.sbox → s.pbox = s'.pbox → s.status = s'.status →
    ∃ (r : Response) (t t' u : State),
      step (s.facing (.cmd w :: rest)) = .next t ∧ t.rsp = some r ∧
      step (s'.facing (.cmd w :: rest')) = .next t' ∧ t'.rsp = some r ∧
      step (t.facing (.cmd w :: rest)) = .next u ∧ u.rsp = some r

/-! INIT, reset, the phases. -/

/-- What holds in every phase (`Inv`: 10_state.md R27, 40_substitution.md R84, 41_permutation.md R103,
70_reset_and_hazards.md R162) is kept by every step. -/
def Obligations.EveryStepKeepsThePhaseLaws : Prop :=
  ∀ s t : State, Inv s → step s = .next t → Inv t

/-- The state after reset is in phase UNINIT and meets the phase laws (10_state.md R32). -/
def Obligations.ResetMeetsThePhaseLaws : Prop :=
  State.reset.status = 0x00 ∧ Inv State.reset

/-- 10_state.md R27: STATUS is one of the legal combinations, READY and CFG_ERR never hold together, and CFG_ERR holds
exactly when SBOX_BAD or PBOX_BAD does; the last two are marked as derived by the spec. -/
def Obligations.StatusFieldsAgree : Prop :=
  ∀ s : State, Inv s →
    (s.status = 0x00 ∨ s.status = 0x01 ∨ s.status = 0x06 ∨ s.status = 0x0A ∨ s.status = 0x0E) ∧
    ¬ (ready s.status = true ∧ cfgErr s.status = true) ∧
    (cfgErr s.status = true ↔ (sboxBad s.status = true ∨ pboxBad s.status = true))

/-- 10_state.md R26: bits 7:4 of the `status` port read as zero in every state, and the port is STATUS where the phase
laws hold. -/
def Obligations.StatusPortReadsReservedAsZero : Prop :=
  (∀ s : State, s.statusPort.extractLsb' 4 4 = 0 ∧ s.statusPort.extractLsb' 0 4 = s.status.extractLsb' 0 4) ∧
  ∀ s : State, Inv s → s.statusPort = s.status

/-- R162: INIT. With both tables valid it writes SINV, PINV and STATUS 0x01; otherwise it writes STATUS
`{0000, !vp, !vs, 1, 0}` alone. Nothing else changes. -/
def Obligations.InitValidatesAndDerives : Prop :=
  ∀ (s : State) (rest : List Event), s.status = 0x00 →
    (validS s.sbox = true → validP s.pbox = true →
      ∃ (sinv : STable) (pinv : PTable),
        (∀ x : Fin 16, readS sinv s.sbox[x.val] = BitVec.ofNat 4 x.val) ∧
        (∀ i : Fin 8, readP pinv s.pbox[i.val] = BitVec.ofNat 3 i.val) ∧
        step (s.facing (.sequencer :: rest)) = .next { s with
          sinv := sinv, pinv := pinv, status := 0x01, rsp := none, boundary := none, schedule := rest }) ∧
    (¬ (validS s.sbox = true ∧ validP s.pbox = true) →
      step (s.facing (.sequencer :: rest)) = .next { s with
        status := 0b0000#4 ++ BitVec.ofBool (!validP s.pbox) ++ BitVec.ofBool (!validS s.sbox) ++ 0b1#1 ++ 0b0#1
        rsp := none, boundary := none, schedule := rest })

/-- 40_substitution.md R83, 41_permutation.md R102: validity is "no value appears twice; equivalently, every value
appears exactly once". -/
def Obligations.ValidityIsBijection : Prop :=
  (∀ T : STable, (validS T = true ↔ ∀ i j : Fin 16, i ≠ j → T[i.val] ≠ T[j.val]) ∧
    (validS T = true ↔ ∀ v : Nibble, ∃ i : Fin 16, T[i.val] = v ∧ ∀ j : Fin 16, T[j.val] = v → j = i)) ∧
  ∀ P : PTable, (validP P = true ↔ ∀ i j : Fin 8, i ≠ j → P[i.val] ≠ P[j.val]) ∧
    (validP P = true ↔ ∀ v : BitPos, ∃ i : Fin 8, P[i.val] = v ∧ ∀ j : Fin 8, P[j.val] = v → j = i)

/-- 40_substitution.md R85 (its parts after the first are marked as derived by the spec), and the same for PINV: in
phase READY the inverse tables invert both ways, are the only ones that do, and are bijections. -/
def Obligations.InverseTablesAreTheInverses : Prop :=
  ∀ s : State, Inv s → s.status = 0x01 →
    ((∀ x : Nibble, readS s.sinv (readS s.sbox x) = x) ∧ (∀ y : Nibble, readS s.sbox (readS s.sinv y) = y) ∧
      (∀ U : STable, (∀ x : Nibble, readS U (readS s.sbox x) = x) → U = s.sinv) ∧ validS s.sinv = true) ∧
    ((∀ x : BitPos, readP s.pinv (readP s.pbox x) = x) ∧ (∀ y : BitPos, readP s.pbox (readP s.pinv y) = y) ∧
      (∀ Q : PTable, (∀ x : BitPos, readP Q (readP s.pbox x) = x) → Q = s.pinv) ∧ validP s.pinv = true)

/-- 40_substitution.md R84, 41_permutation.md R103: on a valid table the generators write every entry, so that nothing
of the unspecified contents remains; with R24 and R25 (marked as derived by the spec), those contents are never
observed: no response in phase UNINIT or FAILED depends on them. -/
def Obligations.UnspecifiedTablesAreNeverObserved : Prop :=
  (∀ T old old' : STable, validS T = true → genSinv T old = genSinv T old') ∧
  (∀ P old old' : PTable, validP P = true → genPinv P old = genPinv P old') ∧
  ∀ (s : State) (U : STable) (Q : PTable) (w : Word) (rest : List Event), Inv s → s.status ≠ 0x01 →
    ∃ (r : Response) (t u : State),
      step (s.facing (.cmd w :: rest)) = .next t ∧ t.rsp = some r ∧
      step ((State.facing { s with sinv := U, pinv := Q } (.cmd w :: rest))) = .next u ∧ u.rsp = some r

/-- R160: what reset writes (SINV and PINV are left unspecified); that INIT is pending exactly in phase UNINIT; that
reset is the only way into phase UNINIT and the only way out of phase FAILED; that no other step reads the
configuration ports. -/
def Obligations.ResetLatchesTheTables : Prop :=
  (∀ (s : State) (rest : List Event), ∃ (sinv : STable) (pinv : PTable) (draws : Nat),
    step (s.facing (.rst :: rest)) = .next { s with
      sbox := Vector.ofFn fun i => s.sboxCfg.extractLsb' (4 * i.val) 4
      pbox := Vector.ofFn fun i => s.pboxCfg.extractLsb' (3 * i.val) 3
      sinv := sinv, pinv := pinv, status := 0x00, draws := draws, rsp := none, boundary := none
      schedule := rest }) ∧
  (∀ (s : State) (rest : List Event), ∃ t, step (s.facing (.sequencer :: rest)) = .next t ∧
    (s.status = 0x00 → t.status ≠ 0x00) ∧ (s.status ≠ 0x00 → SameCore s t)) ∧
  (∀ s t : State, step s = .next t → s.status ≠ 0x00 → t.status = 0x00 →
    ∃ e rest, s.schedule = e :: rest ∧ e.isReset = true) ∧
  (∀ s t : State, step s = .next t → phaseOf s.status = some .failed → phaseOf t.status ≠ some .failed →
    ∃ e rest, s.schedule = e :: rest ∧ e.isReset = true) ∧
  ∀ (s t : State) (a : BitVec 64) (b : BitVec 24), (∀ e rest, s.schedule = e :: rest → e.isReset = false) →
    step s = .next t →
    ∃ u, step { s with sboxCfg := a, pboxCfg := b } = .next u ∧ SameCore t u ∧ u.rsp = t.rsp ∧
      u.boundary = t.boundary ∧ u.schedule = t.schedule

/-- 70_reset_and_hazards.md R161: INIT leaves phase UNINIT, for READY or FAILED; it runs once, since in any other phase
the core's state stays as it is until the next reset, whoever has the turn. -/
def Obligations.InitRunsOncePerReset : Prop :=
  (∀ (s : State) (rest : List Event), s.status = 0x00 → ∃ t, step (s.facing (.sequencer :: rest)) = .next t ∧
    (phaseOf t.status = some .ready ∨ phaseOf t.status = some .failed)) ∧
  ∀ s t : State, s.status ≠ 0x00 → (∀ e rest, s.schedule = e :: rest → e.isReset = false) →
    step s = .next t → SameCore s t

/-- INIT is not put off for ever (70_reset_and_hazards.md R161, D15): however many events without a reset are scheduled
in phase UNINIT, one step after them INIT has run. That the sequencer has the turn when nothing is scheduled is the
model's choice (log 4). -/
def Obligations.InitRunsAfterTheSchedule : Prop :=
  ∀ s : State, s.status = 0x00 → (∀ e ∈ s.schedule, e.isReset = false) →
    ∃ t : State, steps (s.schedule.length + 1) s = .next t ∧ t.status ≠ 0x00

/-- R163: a reset over an outstanding command, both runs: it is discarded and the reset is as any reset; or it
completes first with its normal response. A reset while INIT is pending restarts the sequence: phase UNINIT again,
tables latched anew. -/
def Obligations.ResetOverAnOutstandingCommand : Prop :=
  (∀ (s : State) (w : Word) (rest : List Event),
    step (s.facing (.rstDropping w :: rest)) = step (s.facing (.rst :: rest)) ∧
    ∃ (r : Response) (t : State), step (s.facing (.cmd w :: .rst :: rest)) = .next t ∧ t.rsp = some r ∧
      (∃ t', step (s.facing (.cmd w :: rest)) = .next t' ∧ t'.rsp = some r) ∧
      step t = step (s.facing (.rst :: rest))) ∧
  ∀ (s : State) (rest : List Event), s.status = 0x00 → ∃ t, step (s.facing (.rst :: rest)) = .next t ∧
    t.status = 0x00 ∧ t.sbox = unpackS s.sboxCfg ∧ t.pbox = unpackP s.pboxCfg

/-- 20_memory.md R51, 70_reset_and_hazards.md R164: driving the configuration ports changes the ports and nothing of
the core. -/
def Obligations.DrivingThePortsChangesNoTable : Prop :=
  ∀ (s : State) (a : BitVec 64) (b : BitVec 24) (rest : List Event),
    step (s.facing (.drive a b :: rest)) =
      .next { s with sboxCfg := a, pboxCfg := b, rsp := none, boundary := none, schedule := rest }

/-- The boot order of 70_reset_and_hazards.md R164 from any state: drive the ports, reset, INIT. Valid tables give
phase READY with those tables, others phase FAILED; the phase laws hold either way. -/
def Obligations.BootReachesReadyOrFailed : Prop :=
  ∀ (s : State) (a : BitVec 64) (b : BitVec 24), ∃ t : State,
    steps 3 (s.facing [.drive a b, .rst, .sequencer]) = .next t ∧ Inv t ∧
    t.sbox = unpackS a ∧ t.pbox = unpackP b ∧
    (validS (unpackS a) = true → validP (unpackP b) = true → t.status = 0x01) ∧
    (validS (unpackS a) = false → validP (unpackP b) = true → t.status = 0x06) ∧
    (validS (unpackS a) = true → validP (unpackP b) = false → t.status = 0x0A) ∧
    (validS (unpackS a) = false → validP (unpackP b) = false → t.status = 0x0E)

/-- No step stops: whatever the state and the next event, there is a next state. That is the model's reading (log 17):
the spec gives every command word a response (30_encoding.md R64), has no trap (60_exceptions.md R146) and never blocks
(R148), and does not say it of every state. For an empty schedule, where the spec says nothing, the step is the
sequencer's turn or an idle step by the model's choice (log 4). -/
def Obligations.EveryStepHasANextState : Prop :=
  ∀ s : State, ∃ t : State, step s = .next t

/-- With nothing scheduled and no INIT pending, a step takes the last answers away and changes nothing else (the
model's choice, log 4). -/
def Obligations.IdleStepChangesNothing : Prop :=
  ∀ s : State, s.status ≠ 0x00 → step (s.facing []) = .next { s with rsp := none, boundary := none, schedule := [] }

/-! The laws of the stages and of their composition. -/

/-- 40_substitution.md R86 (marked as derived by the spec): the two lanes of SUB and of INVSUB are independent: the
same input nibble gives the same output nibble, whatever the other lane holds. -/
def Obligations.LanesAreIndependent : Prop :=
  ∀ (s : State) (h l h' l' : Nibble) (i : Byte → Instr), (i = .sub ∨ i = .invsub) →
    cfgErr s.status = false → ready s.status = true →
    ∃ r r1 r2 : Byte, resultOf (i (h ++ l)) s = some r ∧ resultOf (i (h ++ l')) s = some r1 ∧
      resultOf (i (h' ++ l)) s = some r2 ∧
      r1.extractLsb' 4 4 = r.extractLsb' 4 4 ∧ r2.extractLsb' 0 4 = r.extractLsb' 0 4

/-- 40_substitution.md R88 (its second part is marked as derived by the spec): in phase READY, INVSUB undoes SUB and
SUB undoes INVSUB, on every byte. -/
def Obligations.SubAndInvsubAreInverse : Prop :=
  ∀ (s : State) (b : Byte), Inv s → s.status = 0x01 →
    (∃ r, resultOf (.sub b) s = some r ∧ resultOf (.invsub r) s = some b) ∧
    ∃ r, resultOf (.invsub b) s = some r ∧ resultOf (.sub r) s = some b

/-- 41_permutation.md R107 (its second part is marked as derived by the spec): in phase READY, INVPERM undoes PERM and
PERM undoes INVPERM, on every byte. -/
def Obligations.PermAndInvpermAreInverse : Prop :=
  ∀ (s : State) (b : Byte), Inv s → s.status = 0x01 →
    (∃ r, resultOf (.perm b) s = some r ∧ resultOf (.invperm r) s = some b) ∧
    ∃ r, resultOf (.invperm b) s = some r ∧ resultOf (.perm r) s = some b

/-- 41_permutation.md R104 (marked as derived by the spec): in phase READY INVPERM equals the gather through PINV. -/
def Obligations.InvpermEqualsGatherThroughPinv : Prop :=
  ∀ (s : State) (c : Byte), Inv s → s.status = 0x01 →
    exec (.invperm c) s = .next { s with rsp := some (.ok (perm s.pinv c)) }

/-- 41_permutation.md R105 (marked as derived by the spec): the sums of PERM and, with a valid PBOX, of INVPERM never
leave 0..255, so narrowing them loses nothing, and they equal the OR of their terms. -/
def Obligations.BitSumsNeverCarry : Prop :=
  (∀ (P : PTable) (b : Byte), permSum P b < 256 ∧
    permSum P b = (List.finRange 8).foldl (fun acc i => acc ||| (((b.toNat >>> P[i.val].toNat) &&& 1) <<< i.val)) 0) ∧
  ∀ (P : PTable) (c : Byte), validP P = true → unpermSum P c < 256 ∧
    unpermSum P c = (List.finRange 8).foldl (fun acc i => acc ||| (((c.toNat >>> i.val) &&& 1) <<< P[i.val].toNat)) 0

/-- 41_permutation.md R106 (marked as derived by the spec): in phase READY PERM and INVPERM keep the number of 1 bits;
each maps 0x00 to 0x00 and 0xFF to 0xFF. -/
def Obligations.PermAndInvpermKeepTheOnes : Prop :=
  ∀ (s : State) (b : Byte), Inv s → s.status = 0x01 →
    (∃ r, resultOf (.perm b) s = some r ∧ ones r = ones b) ∧
    (∃ r, resultOf (.invperm b) s = some r ∧ ones r = ones b) ∧
    resultOf (.perm 0x00) s = some 0x00 ∧ resultOf (.perm 0xFF) s = some 0xFF ∧
    resultOf (.invperm 0x00) s = some 0x00 ∧ resultOf (.invperm 0xFF) s = some 0xFF

/-- R122, the round-trip law: in phase READY, for every pair of valid tables, issuing ENC b and then DEC of its RESULT
gives b back, for every byte. -/
def Obligations.DecOfEncIsTheByte : Prop :=
  ∀ (s : State) (b : Byte) (rest rest' : List Event), Inv s → s.status = 0x01 →
    ∃ (r : Byte) (t u : State),
      step (s.facing (.cmd (encode (.enc b)) :: rest)) = .next t ∧ t.rsp = some (.ok r) ∧
      step (t.facing (.cmd (encode (.dec r)) :: rest')) = .next u ∧ u.rsp = some (.ok b)

/-- The round trip from power-on or any other state, with any two valid tables on the ports: drive, reset, INIT, ENC b,
then DEC of its RESULT gives b (42_cipher.md R122, 70_reset_and_hazards.md R164). -/
def Obligations.BootedCoreRoundTripsEveryByte : Prop :=
  ∀ (s : State) (T : STable) (P : PTable) (b : Byte), validS T = true → validP P = true →
    ∃ (r : Byte) (t u : State),
      steps 4 (s.facing [.drive (packS T) (packP P), .rst, .sequencer, .cmd (encode (.enc b))]) = .next t ∧
      t.rsp = some (.ok r) ∧
      steps 1 (t.facing [.cmd (encode (.dec r))]) = .next u ∧ u.rsp = some (.ok b)

/-- 42_cipher.md R123 (marked as derived by the spec): in phase READY ENC undoes DEC, and ENC and DEC are bijections
on bytes. -/
def Obligations.EncAndDecAreMutuallyInverseBijections : Prop :=
  ∀ s : State, Inv s → s.status = 0x01 →
    ∃ enc dec : Byte → Byte,
      (∀ b, resultOf (.enc b) s = some (enc b)) ∧ (∀ c, resultOf (.dec c) s = some (dec c)) ∧
      (∀ c, enc (dec c) = c) ∧ (∀ b, dec (enc b) = b) ∧ Function.Bijective enc ∧ Function.Bijective dec
end

