-- ==== Sys2Proof/Laws/State.lean ====
section
/-! SUPPORT. One lemma per field for each update of the state, so that no proof unfolds a record update. -/

namespace Sys2Proof.Machine

/-! Answering a command. -/

@[simp] theorem respond_sbox (r : Response) (s : State) : (respond r s).sbox = s.sbox := rfl
@[simp] theorem respond_pbox (r : Response) (s : State) : (respond r s).pbox = s.pbox := rfl
@[simp] theorem respond_sinv (r : Response) (s : State) : (respond r s).sinv = s.sinv := rfl
@[simp] theorem respond_pinv (r : Response) (s : State) : (respond r s).pinv = s.pinv := rfl
@[simp] theorem respond_status (r : Response) (s : State) : (respond r s).status = s.status := rfl
@[simp] theorem respond_sboxCfg (r : Response) (s : State) : (respond r s).sboxCfg = s.sboxCfg := rfl
@[simp] theorem respond_pboxCfg (r : Response) (s : State) : (respond r s).pboxCfg = s.pboxCfg := rfl
@[simp] theorem respond_rsp (r : Response) (s : State) : (respond r s).rsp = some r := rfl
@[simp] theorem respond_boundary (r : Response) (s : State) : (respond r s).boundary = s.boundary := rfl
@[simp] theorem respond_schedule (r : Response) (s : State) : (respond r s).schedule = s.schedule := rfl
@[simp] theorem respond_draws (r : Response) (s : State) : (respond r s).draws = s.draws := rfl

/-! Raising an error. -/

@[simp] theorem raiseError_sbox (e : ErrCode) (s : State) : (raiseError e s).sbox = s.sbox := rfl
@[simp] theorem raiseError_pbox (e : ErrCode) (s : State) : (raiseError e s).pbox = s.pbox := rfl
@[simp] theorem raiseError_sinv (e : ErrCode) (s : State) : (raiseError e s).sinv = s.sinv := rfl
@[simp] theorem raiseError_pinv (e : ErrCode) (s : State) : (raiseError e s).pinv = s.pinv := rfl
@[simp] theorem raiseError_status (e : ErrCode) (s : State) : (raiseError e s).status = s.status := rfl
@[simp] theorem raiseError_sboxCfg (e : ErrCode) (s : State) : (raiseError e s).sboxCfg = s.sboxCfg := rfl
@[simp] theorem raiseError_pboxCfg (e : ErrCode) (s : State) : (raiseError e s).pboxCfg = s.pboxCfg := rfl
@[simp] theorem raiseError_rsp (e : ErrCode) (s : State) : (raiseError e s).rsp = some (.error e) := rfl
@[simp] theorem raiseError_boundary (e : ErrCode) (s : State) : (raiseError e s).boundary = s.boundary := rfl
@[simp] theorem raiseError_schedule (e : ErrCode) (s : State) : (raiseError e s).schedule = s.schedule := rfl
@[simp] theorem raiseError_draws (e : ErrCode) (s : State) : (raiseError e s).draws = s.draws := rfl

/-! Taking an event. -/

@[simp] theorem taking_sbox (s : State) (rest : List Event) : (s.taking rest).sbox = s.sbox := rfl
@[simp] theorem taking_pbox (s : State) (rest : List Event) : (s.taking rest).pbox = s.pbox := rfl
@[simp] theorem taking_sinv (s : State) (rest : List Event) : (s.taking rest).sinv = s.sinv := rfl
@[simp] theorem taking_pinv (s : State) (rest : List Event) : (s.taking rest).pinv = s.pinv := rfl
@[simp] theorem taking_status (s : State) (rest : List Event) : (s.taking rest).status = s.status := rfl
@[simp] theorem taking_sboxCfg (s : State) (rest : List Event) : (s.taking rest).sboxCfg = s.sboxCfg := rfl
@[simp] theorem taking_pboxCfg (s : State) (rest : List Event) : (s.taking rest).pboxCfg = s.pboxCfg := rfl
@[simp] theorem taking_rsp (s : State) (rest : List Event) : (s.taking rest).rsp = none := rfl
@[simp] theorem taking_boundary (s : State) (rest : List Event) : (s.taking rest).boundary = none := rfl
@[simp] theorem taking_schedule (s : State) (rest : List Event) : (s.taking rest).schedule = rest := rfl
@[simp] theorem taking_draws (s : State) (rest : List Event) : (s.taking rest).draws = s.draws := rfl

/-! Facing a schedule. -/

@[simp] theorem facing_sbox (s : State) (events : List Event) : (s.facing events).sbox = s.sbox := rfl
@[simp] theorem facing_pbox (s : State) (events : List Event) : (s.facing events).pbox = s.pbox := rfl
@[simp] theorem facing_sinv (s : State) (events : List Event) : (s.facing events).sinv = s.sinv := rfl
@[simp] theorem facing_pinv (s : State) (events : List Event) : (s.facing events).pinv = s.pinv := rfl
@[simp] theorem facing_status (s : State) (events : List Event) : (s.facing events).status = s.status := rfl
@[simp] theorem facing_sboxCfg (s : State) (events : List Event) : (s.facing events).sboxCfg = s.sboxCfg := rfl
@[simp] theorem facing_pboxCfg (s : State) (events : List Event) : (s.facing events).pboxCfg = s.pboxCfg := rfl
@[simp] theorem facing_rsp (s : State) (events : List Event) : (s.facing events).rsp = s.rsp := rfl
@[simp] theorem facing_boundary (s : State) (events : List Event) : (s.facing events).boundary = s.boundary := rfl
@[simp] theorem facing_schedule (s : State) (events : List Event) : (s.facing events).schedule = events := rfl
@[simp] theorem facing_draws (s : State) (events : List Event) : (s.facing events).draws = s.draws := rfl

/-! Driving the configuration ports. -/

@[simp] theorem drivePorts_sbox (a : BitVec 64) (b : BitVec 24) (s : State) : (drivePorts a b s).sbox = s.sbox := rfl
@[simp] theorem drivePorts_pbox (a : BitVec 64) (b : BitVec 24) (s : State) : (drivePorts a b s).pbox = s.pbox := rfl
@[simp] theorem drivePorts_sinv (a : BitVec 64) (b : BitVec 24) (s : State) : (drivePorts a b s).sinv = s.sinv := rfl
@[simp] theorem drivePorts_pinv (a : BitVec 64) (b : BitVec 24) (s : State) : (drivePorts a b s).pinv = s.pinv := rfl
@[simp] theorem drivePorts_status (a : BitVec 64) (b : BitVec 24) (s : State) : (drivePorts a b s).status = s.status := rfl
@[simp] theorem drivePorts_sboxCfg (a : BitVec 64) (b : BitVec 24) (s : State) : (drivePorts a b s).sboxCfg = a := rfl
@[simp] theorem drivePorts_pboxCfg (a : BitVec 64) (b : BitVec 24) (s : State) : (drivePorts a b s).pboxCfg = b := rfl
@[simp] theorem drivePorts_rsp (a : BitVec 64) (b : BitVec 24) (s : State) : (drivePorts a b s).rsp = s.rsp := rfl
@[simp] theorem drivePorts_boundary (a : BitVec 64) (b : BitVec 24) (s : State) : (drivePorts a b s).boundary = s.boundary := rfl
@[simp] theorem drivePorts_schedule (a : BitVec 64) (b : BitVec 24) (s : State) : (drivePorts a b s).schedule = s.schedule := rfl
@[simp] theorem drivePorts_draws (a : BitVec 64) (b : BitVec 24) (s : State) : (drivePorts a b s).draws = s.draws := rfl

/-! Reset. -/

@[simp] theorem applyReset_sbox (s : State) : (applyReset s).sbox = unpackS s.sboxCfg := rfl
@[simp] theorem applyReset_pbox (s : State) : (applyReset s).pbox = unpackP s.pboxCfg := rfl
@[simp] theorem applyReset_sinv (s : State) : (applyReset s).sinv = Vector.ofFn (Config.freeSinv s.draws) := rfl
@[simp] theorem applyReset_pinv (s : State) : (applyReset s).pinv = Vector.ofFn (Config.freePinv s.draws) := rfl
@[simp] theorem applyReset_status (s : State) : (applyReset s).status = 0x00 := rfl
@[simp] theorem applyReset_sboxCfg (s : State) : (applyReset s).sboxCfg = s.sboxCfg := rfl
@[simp] theorem applyReset_pboxCfg (s : State) : (applyReset s).pboxCfg = s.pboxCfg := rfl
@[simp] theorem applyReset_rsp (s : State) : (applyReset s).rsp = s.rsp := rfl
@[simp] theorem applyReset_boundary (s : State) : (applyReset s).boundary = s.boundary := rfl
@[simp] theorem applyReset_schedule (s : State) : (applyReset s).schedule = s.schedule := rfl
@[simp] theorem applyReset_draws (s : State) : (applyReset s).draws = s.draws + 1 := rfl

/-! The state after reset. -/

@[simp] theorem State.reset_sbox : (State.reset).sbox = unpackS Config.sboxCfg := rfl
@[simp] theorem State.reset_pbox : (State.reset).pbox = unpackP Config.pboxCfg := rfl
@[simp] theorem State.reset_sinv : (State.reset).sinv = Vector.ofFn (Config.freeSinv 0) := rfl
@[simp] theorem State.reset_pinv : (State.reset).pinv = Vector.ofFn (Config.freePinv 0) := rfl
@[simp] theorem State.reset_status : (State.reset).status = 0x00 := rfl
@[simp] theorem State.reset_sboxCfg : (State.reset).sboxCfg = Config.sboxCfg := rfl
@[simp] theorem State.reset_pboxCfg : (State.reset).pboxCfg = Config.pboxCfg := rfl
@[simp] theorem State.reset_rsp : (State.reset).rsp = none := rfl
@[simp] theorem State.reset_boundary : (State.reset).boundary = none := rfl
@[simp] theorem State.reset_schedule : (State.reset).schedule = [] := rfl
@[simp] theorem State.reset_draws : (State.reset).draws = 1 := rfl

/-! INIT: what it never writes. -/

@[simp] theorem initStep_sbox (s : State) : (initStep s).sbox = s.sbox := by
  simp only [initStep]; split <;> rfl

@[simp] theorem sequencerTurn_sbox (s : State) : (sequencerTurn s).sbox = s.sbox := by
  unfold sequencerTurn; split <;> simp

@[simp] theorem initStep_pbox (s : State) : (initStep s).pbox = s.pbox := by
  simp only [initStep]; split <;> rfl

@[simp] theorem sequencerTurn_pbox (s : State) : (sequencerTurn s).pbox = s.pbox := by
  unfold sequencerTurn; split <;> simp

@[simp] theorem initStep_sboxCfg (s : State) : (initStep s).sboxCfg = s.sboxCfg := by
  simp only [initStep]; split <;> rfl

@[simp] theorem sequencerTurn_sboxCfg (s : State) : (sequencerTurn s).sboxCfg = s.sboxCfg := by
  unfold sequencerTurn; split <;> simp

@[simp] theorem initStep_pboxCfg (s : State) : (initStep s).pboxCfg = s.pboxCfg := by
  simp only [initStep]; split <;> rfl

@[simp] theorem sequencerTurn_pboxCfg (s : State) : (sequencerTurn s).pboxCfg = s.pboxCfg := by
  unfold sequencerTurn; split <;> simp

@[simp] theorem initStep_rsp (s : State) : (initStep s).rsp = s.rsp := by
  simp only [initStep]; split <;> rfl

@[simp] theorem sequencerTurn_rsp (s : State) : (sequencerTurn s).rsp = s.rsp := by
  unfold sequencerTurn; split <;> simp

@[simp] theorem initStep_boundary (s : State) : (initStep s).boundary = s.boundary := by
  simp only [initStep]; split <;> rfl

@[simp] theorem sequencerTurn_boundary (s : State) : (sequencerTurn s).boundary = s.boundary := by
  unfold sequencerTurn; split <;> simp

@[simp] theorem initStep_schedule (s : State) : (initStep s).schedule = s.schedule := by
  simp only [initStep]; split <;> rfl

@[simp] theorem sequencerTurn_schedule (s : State) : (sequencerTurn s).schedule = s.schedule := by
  unfold sequencerTurn; split <;> simp

@[simp] theorem initStep_draws (s : State) : (initStep s).draws = s.draws := by
  simp only [initStep]; split <;> rfl

@[simp] theorem sequencerTurn_draws (s : State) : (sequencerTurn s).draws = s.draws := by
  unfold sequencerTurn; split <;> simp

@[simp] theorem initStep_status (s : State) :
    (initStep s).status = initStatus (validS s.sbox) (validP s.pbox) := by
  simp only [initStep]; split <;> rfl

end Sys2Proof.Machine
end

