-- ==== Sys2Proof/Laws/Ops.lean ====
section
/-! SUPPORT. What each shared operation can do, said once: the two stages and their inverses, validity, the inverse
generators, answering a command, INIT. -/

namespace Sys2Proof.Machine

/-! The substitution stage. -/

theorem nibHi_append (h l : Nibble) : nibHi (h ++ l) = h := by revert h l; decide

theorem nibLo_append (h l : Nibble) : nibLo (h ++ l) = l := by revert h l; decide

theorem append_nibbles (b : Byte) : (nibHi b ++ nibLo b : Byte) = b := by revert b; decide

@[simp] theorem nibHi_subst (T : STable) (b : Byte) : nibHi (subst T b) = readS T (nibHi b) := nibHi_append _ _

@[simp] theorem nibLo_subst (T : STable) (b : Byte) : nibLo (subst T b) = readS T (nibLo b) := nibLo_append _ _

/-- One table undoes another on bytes as soon as it does on nibbles. -/
theorem subst_subst_of_inverse {T U : STable} (h : ∀ x, readS U (readS T x) = x) (b : Byte) :
    subst U (subst T b) = b := by
  rw [subst, nibHi_subst, nibLo_subst, h, h, append_nibbles]

/-! Validity. -/

theorem validS_iff (T : STable) : validS T = true ↔ ∀ x y : Nibble, readS T x = readS T y → x = y := by
  rw [validS, decide_eq_true_iff]
  constructor
  · intro h x y hxy
    by_contra hne
    exact h x.toFin y.toFin (fun e => hne (BitVec.toFin_inj.mp e)) hxy
  · intro h i j hij e
    apply hij
    have := h (BitVec.ofFin i) (BitVec.ofFin j) e
    simpa using this

theorem validP_iff (P : PTable) : validP P = true ↔ ∀ x y : BitPos, readP P x = readP P y → x = y := by
  rw [validP, decide_eq_true_iff]
  constructor
  · intro h x y hxy
    by_contra hne
    exact h x.toFin y.toFin (fun e => hne (BitVec.toFin_inj.mp e)) hxy
  · intro h i j hij e
    apply hij
    have := h (BitVec.ofFin i) (BitVec.ofFin j) e
    simpa using this

/-! The permutation stage. -/

/-- A bit cut out by a shift and a mask. -/
theorem shift_and_one (b : Byte) (p : Nat) : (b.toNat >>> p) &&& 1 = (b.getLsbD p).toNat := by
  rw [BitVec.getLsbD, Nat.toNat_testBit, Nat.and_one_is_mod, Nat.shiftRight_eq_div_pow]

/-- Eight bits, each at its own position: the sum fits a byte and its bits are the terms. -/
theorem sum_of_bits (f : Fin 8 → Bool) :
    ((List.finRange 8).map fun i => (f i).toNat <<< i.val).sum < 256 ∧
      ∀ i : Fin 8, (BitVec.ofNat 8 ((List.finRange 8).map fun i => (f i).toNat <<< i.val).sum).getLsbD i.val = f i := by
  have key : ∀ c0 c1 c2 c3 c4 c5 c6 c7 : Bool,
      ([c0.toNat <<< 0, c1.toNat <<< 1, c2.toNat <<< 2, c3.toNat <<< 3, c4.toNat <<< 4, c5.toNat <<< 5,
        c6.toNat <<< 6, c7.toNat <<< 7].sum < 256) ∧ ∀ i : Fin 8,
      (BitVec.ofNat 8 [c0.toNat <<< 0, c1.toNat <<< 1, c2.toNat <<< 2, c3.toNat <<< 3, c4.toNat <<< 4,
        c5.toNat <<< 5, c6.toNat <<< 6, c7.toNat <<< 7].sum).getLsbD i.val
        = [c0, c1, c2, c3, c4, c5, c6, c7][i.val] := by decide
  obtain ⟨hlt, hbit⟩ := key (f 0) (f 1) (f 2) (f 3) (f 4) (f 5) (f 6) (f 7)
  refine ⟨hlt, fun i => (hbit i).trans ?_⟩
  fin_cases i <;> rfl

theorem permSum_eq (P : PTable) (b : Byte) :
    permSum P b = ((List.finRange 8).map fun i => (b.getLsbD P[i.val].toNat).toNat <<< i.val).sum := by
  simp only [permSum, shift_and_one]

/-- Output bit i is `b[P[i]]` (R100). -/
theorem perm_getLsbD (P : PTable) (b : Byte) (i : BitPos) :
    (perm P b).getLsbD i.toNat = b.getLsbD (readP P i).toNat := by
  rw [perm, permSum_eq]
  exact (sum_of_bits fun i => b.getLsbD P[i.val].toNat).2 i.toFin

/-- A rule of positions with an inverse scatters bit i to position `P[i]`: the sum is that of its gather. -/
theorem unpermSum_eq_of_inverse {P Q : PTable} (h : ∀ i, readP Q (readP P i) = i) (c : Byte) :
    unpermSum P c = permSum Q c := by
  have hinj : Function.Injective fun i : Fin 8 => P[i.val].toFin := by
    intro i j e
    have : readP P (BitVec.ofFin i) = readP P (BitVec.ofFin j) := BitVec.toFin_inj.mp e
    have := (h (BitVec.ofFin i)).symm.trans ((congrArg (readP Q) this).trans (h _))
    simpa using this
  let e : Fin 8 ≃ Fin 8 := Equiv.ofBijective _ (Finite.injective_iff_bijective.mp hinj)
  have hq : ∀ i : Fin 8, Q[(e i).val].toNat = i.val := fun i => congrArg BitVec.toNat (h (BitVec.ofFin i))
  simp only [unpermSum, permSum, shift_and_one, ← Fin.sum_univ_def]
  rw [← Equiv.sum_comp e fun j => (c.getLsbD Q[j.val].toNat).toNat <<< j.val]
  refine Finset.sum_congr rfl fun i _ => ?_
  show (c.getLsbD i.val).toNat <<< (e i).val = _
  rw [hq]

/-! The inverse generators. -/

/-- An entry that no later write names keeps its value. -/
theorem foldl_set_other {n w : Nat} (f : Fin n → BitVec w) (hf : ∀ i j, f i = f j → i = j) (v : Fin n → BitVec w)
    (x : Fin n) : ∀ (l : List (Fin n)) (inv : Vector (BitVec w) (2 ^ w)), x ∉ l →
      (l.foldl (fun inv y => inv.set (f y).toNat (v y) (f y).isLt) inv)[(f x).toNat]'(f x).isLt
        = inv[(f x).toNat]'(f x).isLt := by
  intro l
  induction l with
  | nil => intros; rfl
  | cons y l ih =>
    intro inv hx
    rw [List.mem_cons, not_or] at hx
    rw [List.foldl_cons, ih _ hx.2, Vector.getElem_set_ne]
    exact fun e => hx.1 (hf x y (BitVec.eq_of_toNat_eq e.symm))

/-- An entry that a loop over distinct places writes holds what was written. -/
theorem foldl_set_mem {n w : Nat} (f : Fin n → BitVec w) (hf : ∀ i j, f i = f j → i = j) (v : Fin n → BitVec w)
    (x : Fin n) : ∀ (l : List (Fin n)) (inv : Vector (BitVec w) (2 ^ w)), x ∈ l →
      (l.foldl (fun inv y => inv.set (f y).toNat (v y) (f y).isLt) inv)[(f x).toNat]'(f x).isLt = v x := by
  intro l
  induction l with
  | nil => intro _ h; cases h
  | cons y l ih =>
    intro inv hx
    rw [List.foldl_cons]
    by_cases hl : x ∈ l
    · exact ih _ hl
    · obtain rfl : x = y := (List.mem_cons.mp hx).resolve_right hl
      rw [foldl_set_other f hf v x l _ hl, Vector.getElem_set_self]

/-- The inverse S-box generator makes `SINV[SBOX[x]] = x` (R84). -/
theorem genSinv_readS {T : STable} (hT : validS T = true) (old : STable) (x : Nibble) :
    readS (genSinv T old) (readS T x) = x := by
  have hf : ∀ i j : Fin 16, T[i.val] = T[j.val] → i = j := by
    intro i j e
    by_contra hne
    exact (of_decide_eq_true hT) i j hne e
  refine (foldl_set_mem (fun i : Fin 16 => T[i.val]) hf _ x.toFin (List.finRange 16) old
    (List.mem_finRange _)).trans ?_
  show BitVec.ofNat 4 x.toNat = x
  simp

/-- The inverse P-box generator makes `PINV[PBOX[i]] = i` (R103). -/
theorem genPinv_readP {P : PTable} (hP : validP P = true) (old : PTable) (i : BitPos) :
    readP (genPinv P old) (readP P i) = i := by
  have hf : ∀ i j : Fin 8, P[i.val] = P[j.val] → i = j := by
    intro i j e
    by_contra hne
    exact (of_decide_eq_true hP) i j hne e
  refine (foldl_set_mem (fun i : Fin 8 => P[i.val]) hf _ i.toFin (List.finRange 8) old
    (List.mem_finRange _)).trans ?_
  show BitVec.ofNat 3 i.toNat = i
  simp

/-! Answering a command. -/

theorem prologue_cases (s : State) :
    (cfgErr s.status = true ∧ prologue s = some .configError) ∨
    (cfgErr s.status = false ∧ ready s.status = false ∧ prologue s = some .notReady) ∨
    (cfgErr s.status = false ∧ ready s.status = true ∧ prologue s = none) := by
  cases hc : cfgErr s.status <;> cases hr : ready s.status <;> simp [prologue, hc, hr]

theorem complete_configError {s : State} (hc : cfgErr s.status = true) (r : Byte) :
    complete r s = .next (raiseError .configError s) := by simp [complete, prologue, hc]

theorem complete_notReady {s : State} (hc : cfgErr s.status = false) (hr : ready s.status = false) (r : Byte) :
    complete r s = .next (raiseError .notReady s) := by simp [complete, prologue, hc, hr]

theorem complete_ok {s : State} (hc : cfgErr s.status = false) (hr : ready s.status = true) (r : Byte) :
    complete r s = .next (respond (.ok r) s) := by simp [complete, prologue, hc, hr]

theorem completeIllegal_eq (s : State) :
    completeIllegal s = .next (raiseError ((prologue s).getD .illegalCommand) s) := by
  unfold completeIllegal; split <;> simp_all

/-- The result that a command's meaning hands to `complete`. -/
def pureResult (i : Instr) (s : State) : Byte :=
  match i with
  | .sub b => subst s.sbox b
  | .invsub c => subst s.sinv c
  | .perm b => perm s.pbox b
  | .invperm c => unperm s.pbox c
  | .enc b => perm s.pbox (subst s.sbox b)
  | .dec c => subst s.sinv (unperm s.pbox c)

theorem exec_eq_complete (i : Instr) (s : State) : exec i s = complete (pureResult i s) s := by
  cases i <;> rfl

/-! INIT. -/

theorem initStep_of_valid {s : State} (hs : validS s.sbox = true) (hp : validP s.pbox = true) :
    initStep s = { s with sinv := genSinv s.sbox s.sinv, pinv := genPinv s.pbox s.pinv, status := 0x01 } := by
  simp [initStep, initStatus, hs, hp]

theorem initStep_of_invalid {s : State} (h : (validS s.sbox && validP s.pbox) = false) :
    initStep s = { s with status := initStatus (validS s.sbox) (validP s.pbox) } := by
  simp [initStep, h]

end Sys2Proof.Machine
end

