-- ==== Sys2Proof/Laws/PerInstr.lean ====
section
/-! SUPPORT. Laws stated per command: every command's word is a legal one (30_encoding.md R63, R64). -/

namespace Sys2Proof.Laws.EncodeLegal

/-- The command's word is legal and carries its operand in DATA. -/
def Statement (i : Instr) : Prop := legalWord (encode i) = true ∧ dataField (encode i) = i.operand

theorem sub (b : Byte) : Statement (.sub b) := by revert b; unfold Statement; decide
theorem invsub (b : Byte) : Statement (.invsub b) := by revert b; unfold Statement; decide
theorem perm (b : Byte) : Statement (.perm b) := by revert b; unfold Statement; decide
theorem invperm (b : Byte) : Statement (.invperm b) := by revert b; unfold Statement; decide
theorem enc (b : Byte) : Statement (.enc b) := by revert b; unfold Statement; decide
theorem dec (b : Byte) : Statement (.dec b) := by revert b; unfold Statement; decide

end Sys2Proof.Laws.EncodeLegal
end

