-- ==== Sys2Proof/Laws/Step.lean ====
section
/-! SUPPORT. What accepting a word and taking a step can do, said once. -/

namespace Sys2Proof.Machine

/-- The response to a command word in a state (R145). -/
def answerTo (w : Word) (s : State) : Response :=
  match prologue s with
  | some e => .error e
  | none =>
    match decode w with
    | .ok i => .ok (pureResult i s)
    | .error _ => .error .illegalCommand

/-- Accepting a word answers it and does nothing else (R28, R65, R146). -/
theorem acceptWord_eq (w : Word) (s : State) : acceptWord w s = .next (respond (answerTo w s) s) := by
  unfold acceptWord answerTo
  cases hd : decode w <;> cases hp : prologue s <;>
    simp [exec_eq_complete, complete, completeIllegal, raiseError, hp]

theorem exec_eq_respond (i : Instr) (s : State) : ∃ r, exec i s = .next (respond r s) := by
  rw [exec_eq_complete, complete]
  split
  · exact ⟨_, rfl⟩
  · exact ⟨_, rfl⟩

theorem issueWord_of_le {op : Op} {n : Nat} (h : n ≤ 255) :
    issueWord op n = .ok (asm op (BitVec.ofNat 8 n)) := if_pos h

theorem issueWord_of_gt {op : Op} {n : Nat} (h : 255 < n) : issueWord op n = .error .inputRange :=
  if_neg (by omega)

/-- Every answer on `rsp` comes with one of the codes 0 to 3 (R140). -/
theorem answerTo_code (w : Word) (s : State) : (answerTo w s).code.toNat ≤ 3 := by
  unfold answerTo prologue
  cases cfgErr s.status <;> cases ready s.status <;> cases decode w <;> simp [Response.code, ErrCode.number]

theorem step_nil {s : State} (h : s.schedule = []) : step s = .next (sequencerTurn (s.taking [])) := by
  simp [step, advance, h]

theorem step_cmd {s : State} {w : Word} {rest : List Event} (h : s.schedule = .cmd w :: rest) :
    step s = .next (respond (answerTo w (s.taking rest)) (s.taking rest)) := by
  simp [step, advance, h, takeEvent, acceptWord_eq]

theorem step_issue_of_le {s : State} {op : Op} {n : Nat} {rest : List Event} (h : s.schedule = .issue op n :: rest)
    (hn : n ≤ 255) :
    step s = .next (respond (answerTo (asm op (BitVec.ofNat 8 n)) (s.taking rest)) (s.taking rest)) := by
  simp [step, advance, h, takeEvent, callBoundary, issueWord_of_le hn, acceptWord_eq]

theorem step_issue_of_gt {s : State} {op : Op} {n : Nat} {rest : List Event} (h : s.schedule = .issue op n :: rest)
    (hn : 255 < n) : step s = .next { s.taking rest with boundary := some .inputRange } := by
  simp [step, advance, h, takeEvent, callBoundary, issueWord_of_gt hn]

theorem step_sequencer {s : State} {rest : List Event} (h : s.schedule = .sequencer :: rest) :
    step s = .next (sequencerTurn (s.taking rest)) := by
  simp [step, advance, h, takeEvent]

theorem step_drive {s : State} {a : BitVec 64} {b : BitVec 24} {rest : List Event}
    (h : s.schedule = .drive a b :: rest) : step s = .next (drivePorts a b (s.taking rest)) := by
  simp [step, advance, h, takeEvent]

theorem step_reset {s : State} {e : Event} {rest : List Event} (h : s.schedule = e :: rest)
    (he : e.isReset = true) : step s = .next (applyReset (s.taking rest)) := by
  cases e <;> simp [Event.isReset] at he <;> simp [step, advance, h, takeEvent]

/-- Everything a step can do. -/
theorem step_cases {s t : State} (h : step s = .next t) :
    (s.schedule = [] ∧ t = sequencerTurn (s.taking [])) ∨
    (∃ rest, s.schedule = .sequencer :: rest ∧ t = sequencerTurn (s.taking rest)) ∨
    (∃ e rest w, s.schedule = e :: rest ∧ (e = .cmd w ∨ ∃ op n, e = .issue op n ∧ n ≤ 255 ∧
      w = asm op (BitVec.ofNat 8 n)) ∧ t = respond (answerTo w (s.taking rest)) (s.taking rest)) ∨
    (∃ op n rest, s.schedule = .issue op n :: rest ∧ 255 < n ∧
      t = { s.taking rest with boundary := some .inputRange }) ∨
    (∃ a b rest, s.schedule = .drive a b :: rest ∧ t = drivePorts a b (s.taking rest)) ∨
    (∃ e rest, s.schedule = e :: rest ∧ e.isReset = true ∧ t = applyReset (s.taking rest)) := by
  have inj : ∀ u, step s = .next u → t = u := fun u hu => by
    rw [hu] at h
    exact (Host.Outcome.next.inj h).symm
  match hs : s.schedule with
  | [] => exact .inl ⟨rfl, inj _ (step_nil hs)⟩
  | .sequencer :: rest => exact .inr (.inl ⟨rest, rfl, inj _ (step_sequencer hs)⟩)
  | .cmd w :: rest => exact .inr (.inr (.inl ⟨_, rest, w, rfl, .inl rfl, inj _ (step_cmd hs)⟩))
  | .issue op n :: rest =>
    by_cases hn : n ≤ 255
    · exact .inr (.inr (.inl ⟨_, rest, _, rfl, .inr ⟨op, n, rfl, hn, rfl⟩, inj _ (step_issue_of_le hs hn)⟩))
    · have hn : 255 < n := by omega
      exact .inr (.inr (.inr (.inl ⟨op, n, rest, rfl, hn, inj _ (step_issue_of_gt hs hn)⟩)))
  | .drive a b :: rest => exact .inr (.inr (.inr (.inr (.inl ⟨a, b, rest, rfl, inj _ (step_drive hs)⟩))))
  | .rst :: rest =>
    exact .inr (.inr (.inr (.inr (.inr ⟨_, rest, rfl, rfl, inj _ (step_reset hs rfl)⟩))))
  | .rstDropping w :: rest =>
    exact .inr (.inr (.inr (.inr (.inr ⟨_, rest, rfl, rfl, inj _ (step_reset hs rfl)⟩))))

/-! Runs. -/

@[simp] theorem steps_zero (s : State) : steps 0 s = .next s := rfl

/-- A run takes its first step and goes on from there. -/
theorem steps_succ {s t : State} (h : step s = .next t) (k : Nat) : steps (k + 1) s = steps k t := by
  rw [steps, h]

theorem host_run_of_next (M : Host.Core) {s t : M.State} (h : M.step s = .next t) (k : Nat) :
    M.run (k + 1) s = M.run k t := by rw [Host.Core.run, h]

theorem host_run_of_fault (M : Host.Core) {s : M.State} {r : M.Fault} (h : M.step s = .fault r) (k : Nat) :
    M.run (k + 1) s = .fault r := by rw [Host.Core.run, h]

theorem host_run_of_refused (M : Host.Core) {s : M.State} {r : M.Refusal} (h : M.step s = .refused r) (k : Nat) :
    M.run (k + 1) s = .refused r := by rw [Host.Core.run, h]

/-- The model's runs are the host's. -/
theorem core_run_eq_steps : ∀ (k : Nat) (s : State), Sys2Proof.core.run k s = steps k s
  | 0, _ => rfl
  | k + 1, s => by
    rw [steps]
    cases h : step s with
    | next t => exact (host_run_of_next Sys2Proof.core h k).trans (core_run_eq_steps k t)
    | fault r => exact host_run_of_fault Sys2Proof.core h k
    | refused r => exact host_run_of_refused Sys2Proof.core h k

end Sys2Proof.Machine
end

