-- ==== Sys2Proof/Tests/Slice0.lean ====
section
/-! SUPPORT. The model's own tests: the checks of WellFormed refuse ill-formed terms, words written out from the spec
decode, single steps give the vectors of 95_test_vectors.md, and every statement with hypotheses has a state that meets
them. Expected values are the spec's, never the model's own output. -/

namespace Sys2Proof.Tests
open Sys2Proof Sys2Proof.Machine

/-! The bench: a small state with given tables, STATUS and events. SBOX_T, SINV_T and PINV are those of
95_test_vectors.md 2.3 and 2.4. -/

def sboxT : STable := #v[3, 0, 1, 2, 5, 6, 7, 8, 10, 11, 9, 12, 13, 14, 15, 4]
def sinvT : STable := #v[1, 2, 3, 0, 15, 4, 5, 6, 7, 10, 8, 9, 11, 12, 13, 14]
def pboxSource : PTable := #v[1, 5, 2, 0, 3, 7, 4, 6]
def pinvSource : PTable := #v[3, 0, 2, 4, 6, 1, 7, 5]
def allThree : STable := Vector.replicate 16 3
def pboxBadRule : PTable := #v[0, 0, 1, 2, 3, 4, 5, 6]

def bench (T : STable) (P : PTable) (status : Byte) (schedule : List Event) : State where
  sbox := T
  pbox := P
  sinv := sinvT
  pinv := pinvSource
  status := status
  sboxCfg := 0
  pboxCfg := 0
  rsp := none
  boundary := none
  schedule := schedule
  draws := 0

def readyBench : State := bench sboxT pboxSource 0x01 []
def uninitBench : State := bench sboxT pboxSource 0x00 []
def failedBench : State := bench allThree pboxSource 0x06 []

/-- The response to a word in a state. -/
def answer (s : State) (w : Word) : Option Response :=
  match step (s.facing [.cmd w]) with
  | .next t => t.rsp
  | .fault _ => none
  | .refused _ => none

/-- STATUS after the sequencer's turn. -/
def statusAfterInit (T : STable) (P : PTable) : Option Byte :=
  match step (bench T P 0x00 [.sequencer]) with
  | .next t => some t.status
  | .fault _ => none
  | .refused _ => none

/-! WellFormed: each check refuses an ill-formed term. -/

theorem test_rsvdClear_refuses : rsvdClear 0x0800 = false ∧ rsvdClear 0x8400 = false ∧ rsvdClear 0x07FF = true := by
  decide
theorem test_opAssigned_refuses : opAssigned 0x0600 = false ∧ opAssigned 0x07FF = false ∧ opAssigned 0x05FF = true := by
  decide
theorem test_legalWord_refuses : legalWord 0x0800 = false ∧ legalWord 0x0600 = false ∧ legalWord 0x04A5 = true := by
  decide
theorem test_fitsByte_refuses : fitsByte 256 = false ∧ fitsByte 255 = true := by decide
theorem test_fitsWord_refuses : fitsWord 65536 = false ∧ fitsWord 65535 = true := by decide
/-- No ill-formed command exists: R62 makes the operand fit by construction. -/
theorem test_every_command_wf (i : Instr) : i.wf = true := by
  unfold Instr.wf
  have := i.operand.isLt
  simp only [decide_eq_true_eq]
  omega

/-! Decoding: words written out bit by bit from R61 and R63. -/

theorem test_decode_sub : decode 0b0000000010100101 = .ok (.sub 0xA5) := by decide
theorem test_decode_invsub : decode 0b0000000101000100 = .ok (.invsub 0x44) := by decide
theorem test_decode_perm : decode 0b0000001000000001 = .ok (.perm 0x01) := by decide
theorem test_decode_invperm : decode 0b0000001100001000 = .ok (.invperm 0x08) := by decide
theorem test_decode_enc : decode 0b0000010010100101 = .ok (.enc 0xA5) := by decide
theorem test_decode_dec : decode 0b0000010101100101 = .ok (.dec 0x65) := by decide
theorem test_decode_rejects : decode 0x0600 = .error .reservedOp ∧ decode 0x0700 = .error .reservedOp ∧
    decode 0x0800 = .error .reservedBits ∧ decode 0x8400 = .error .reservedBits ∧
    decode 0xFFFF = .error .reservedBits := by decide
theorem test_decodeTableWord : decodeTableWord 16 0x0300 = some (.invperm 0x00) ∧ decodeTableWord 16 0x0600 = none ∧
    decodeTableWord 8 0x04A5 = some (.sub 0xA5) ∧ decodeTableWord 17 0 = none := by decide

/-! Packing (R66). -/

theorem test_pack : packP pboxSource = 0xD3B0A9 ∧ packS sboxT = 0x4FEDC9BA87652103 ∧
    unpackS 0x4FEDC9BA87652103 = sboxT := by decide

/-! The commands (95_test_vectors.md sections 1 and 2). -/

theorem test_sub_source : answer readyBench 0x0000 = some (.ok 0x33) ∧ answer readyBench 0x00FF = some (.ok 0x44) := by
  decide
theorem test_sub_lanes : answer readyBench 0x000F = some (.ok 0x34) ∧ answer readyBench 0x00C9 = some (.ok 0xDB) := by
  decide
theorem test_invsub_source : answer readyBench 0x0144 = some (.ok 0xFF) ∧ answer readyBench 0x0134 = some (.ok 0x0F) := by
  decide
theorem test_perm_source : answer readyBench 0x0201 = some (.ok 0x08) ∧ answer readyBench 0x0265 = some (.ok 0x8E) := by
  decide
theorem test_perm_asymmetric : answer readyBench 0x027F = some (.ok 0xDF) ∧ answer readyBench 0x023C = some (.ok 0x56) := by
  decide
theorem test_invperm_source : answer readyBench 0x0308 = some (.ok 0x01) ∧ answer readyBench 0x0396 = some (.ok 0x6C) := by
  decide
theorem test_enc_source : answer readyBench 0x04A5 = some (.ok 0x65) ∧ answer readyBench 0x04C9 = some (.ok 0xF9) := by
  decide
theorem test_enc_fixed_point : answer readyBench 0x0419 = some (.ok 0x19) ∧ answer readyBench 0x04E3 = some (.ok 0xE3) := by
  decide
theorem test_dec_source : answer readyBench 0x0565 = some (.ok 0xA5) ∧ answer readyBench 0x05FF = some (.ok 0xEE) := by
  decide

/-! Errors and their priority (95_test_vectors.md 2.6). -/

theorem test_errors : answer uninitBench 0x0000 = some (.error .notReady) ∧
    answer uninitBench 0x0600 = some (.error .notReady) ∧ answer readyBench 0x0600 = some (.error .illegalCommand) ∧
    answer readyBench 0x8400 = some (.error .illegalCommand) ∧ answer failedBench 0x0201 = some (.error .configError) ∧
    answer failedBench 0x0700 = some (.error .configError) := by decide
theorem test_boundary : issueWord .sub 256 = .error .inputRange ∧ issueWord .sub 255 = .ok 0x00FF := by decide
theorem test_response_words : (Response.ok 0x65).admits 0x0065 = true ∧ (Response.error .notReady).admits 0x02C3 = true ∧
    Response.ofWord 0x03AB = some (.error .illegalCommand) ∧ Response.ofWord 0x0500 = none ∧
    Response.ofWord 0x0400 = none := by decide

/-! INIT, reset and placing a word (95_test_vectors.md 2.5, P4). -/

theorem test_init_status : statusAfterInit sboxT pboxSource = some 0x01 ∧
    statusAfterInit allThree pboxSource = some 0x06 ∧ statusAfterInit sboxT pboxBadRule = some 0x0A ∧
    statusAfterInit allThree pboxBadRule = some 0x0E := by decide
theorem test_init_near_miss : statusAfterInit (sboxT.set 1 3) pboxSource = some 0x06 ∧
    statusAfterInit sboxT (pboxSource.set 1 1) = some 0x0A := by decide
theorem test_generators : genSinv sboxT (Vector.ofFn (Config.freeSinv 7)) = sinvT ∧
    genPinv pboxSource (Vector.ofFn (Config.freePinv 7)) = pinvSource := by decide
theorem test_reset_latches : (applyReset { readyBench with sboxCfg := 0x4FEDC9BA87652103, pboxCfg := 0xD3B0A9 }).sbox = sboxT ∧
    (applyReset { readyBench with pboxCfg := 0xD3B0A9 }).pbox = pboxSource ∧ (applyReset readyBench).status = 0x00 := by
  decide
theorem test_first_word_after_reset : (match step (State.reset.withFetchWord 16 0x0000) with
    | .next t => t.rsp
    | .fault _ => none
    | .refused _ => none) = some (.error .notReady) := by decide

/-! The assembler (R67; programs P1 and P3). -/

theorem test_assembler : assembleLine "enc 0xA5     ; 0x04A5".toList = .ok (some 0x04A5) ∧
    assembleLine "invsub 0b01000100".toList = .ok (some 0x0144) ∧ assembleLine ".word 0xFFFF".toList = .ok (some 0xFFFF) ∧
    assembleLine "  ; a comment".toList = .ok none ∧ assembleLine "sub 256".toList = .error .outOfRange ∧
    assembleLine "SUB 1".toList = .error .unknownMnemonic ∧ assembleLine "sub 0x".toList = .error .badLiteral := by decide
theorem test_assemble_listing : assemble ["enc 255".toList, "".toList, "dec 0x84".toList] = .ok [0x04FF, 0x0584] := by
  decide

/-! Witnesses: states that meet the hypotheses of the statements. -/

theorem ready_inv : Inv readyBench :=
  ⟨by decide, fun _ => by decide, fun _ => by decide, fun _ => by decide, fun h => absurd h (by decide)⟩
theorem uninit_inv : Inv uninitBench :=
  ⟨by decide, fun h => absurd h (by decide), fun h => absurd h (by decide), fun h => absurd h (by decide),
    fun h => absurd h (by decide)⟩
theorem failed_inv : Inv failedBench :=
  ⟨by decide, fun h => absurd h (by decide), fun h => absurd h (by decide), fun h => absurd h (by decide),
    fun _ => by decide⟩
theorem ready_source : SourceInstance readyBench.sbox readyBench.pbox :=
  ⟨by decide, by decide, by decide, by decide, by decide⟩

theorem witness_EncodeOfDecodeIsTheWord : decode 0x05FF = .ok (.dec 0xFF) ∧ decode 0x0000 = .ok (.sub 0x00) := by decide
theorem witness_OpFieldSelectsTheOperation : ∃ i, decode 0x05FF = .ok i := ⟨.dec 0xFF, by decide⟩
theorem witness_IllegalWords : cfgErr readyBench.status = false ∧ ready readyBench.status = true ∧
    (0x0800 : Word).extractLsb' 11 5 ≠ 0 ∧ (0x06FF : Word).extractLsb' 8 3 = 6 ∧ (0x0700 : Word).extractLsb' 8 3 = 7 := by
  decide
theorem witness_Assembler : mnemonicOp "perm".toList = some .perm ∧ literalValue "255".toList = some 255 ∧
    literalValue "0x100".toList = some 256 := by decide
theorem witness_PrologueStopsEveryCommand : cfgErr failedBench.status = true ∧
    (cfgErr uninitBench.status = false ∧ ready uninitBench.status = false) := by decide
/-- SUB, INVSUB, PERM, INVPERM, ENC, DEC, the lanes and the codes: phase READY. -/
theorem witness_ready : cfgErr readyBench.status = false ∧ ready readyBench.status = true ∧
    validP readyBench.pbox = true := by decide
theorem witness_Sub_example : cfgErr readyBench.status = false ∧ ready readyBench.status = true ∧
    SourceInstance readyBench.sbox readyBench.pbox := ⟨by decide, by decide, ready_source⟩
theorem witness_CommandsWriteOnlyTheResponse : ∃ t, exec (.enc 0xFF) readyBench = .next t := ⟨_, rfl⟩
theorem witness_SourceInstanceExamplesHold : Inv readyBench ∧ readyBench.status = 0x01 ∧
    SourceInstance readyBench.sbox readyBench.pbox := ⟨ready_inv, rfl, ready_source⟩
theorem witness_StepRunsTheDecodedCommand : decode 0x04A5 = .ok (.enc 0xA5) := by decide
theorem witness_ResponseWord : Response.ok 0xFF ≠ .error .inputRange ∧ Response.error .illegalCommand ≠ .error .inputRange := by
  decide
theorem witness_CodesOnTheResponsePort : ∃ t r, step (readyBench.facing [.cmd 0xFFFF]) = .next t ∧ t.rsp = some r :=
  ⟨_, _, rfl, rfl⟩
theorem witness_NotReadyBeforeInit : ready uninitBench.status = false ∧ cfgErr uninitBench.status = false := by decide
theorem witness_ConfigError_detection : (bench allThree pboxSource 0x00 []).status = 0x00 ∧ validS allThree = false ∧
    validP pboxBadRule = false := by decide
theorem witness_ConfigError_lasts : cfgErr failedBench.status = true ∧
    (∀ e rest, (failedBench.facing [.cmd 0x0000]).schedule = e :: rest → e.isReset = false) ∧
    ∃ t, step (failedBench.facing [.cmd 0x0000]) = .next t :=
  ⟨by decide, fun _ _ h => by cases h; rfl, _, rfl⟩
theorem witness_Boundary : 255 < 256 ∧ 255 ≤ 255 := by decide
/-- Two states of phase UNINIT that differ in the unspecified tables. -/
theorem witness_ResponseDepends : Inv uninitBench ∧ Inv { uninitBench with sinv := sboxT } ∧
    uninitBench.sinv ≠ sboxT :=
  ⟨uninit_inv, ⟨by decide, fun h => absurd h (by decide), fun h => absurd h (by decide),
    fun h => absurd h (by decide), fun h => absurd h (by decide)⟩, by decide⟩
theorem witness_ResponseDepends_ready : Inv readyBench ∧ Inv { readyBench with draws := 5 } :=
  ⟨ready_inv, ready_inv.phase_legal, ready_inv.ready_valid, ready_inv.ready_sinv, ready_inv.ready_pinv,
    ready_inv.failed_names⟩
theorem witness_EveryStepKeepsThePhaseLaws : Inv uninitBench ∧ ∃ t, step uninitBench = .next t := ⟨uninit_inv, _, rfl⟩
theorem witness_StatusFieldsAgree : Inv uninitBench ∧ Inv readyBench ∧ Inv failedBench :=
  ⟨uninit_inv, ready_inv, failed_inv⟩
theorem witness_InitValidatesAndDerives : uninitBench.status = 0x00 ∧ validS uninitBench.sbox = true ∧
    validP uninitBench.pbox = true ∧ ¬ (validS allThree = true ∧ validP pboxSource = true) := by decide
theorem witness_InverseTables : Inv readyBench ∧ readyBench.status = 0x01 := ⟨ready_inv, rfl⟩
theorem witness_UnspecifiedTables : validS sboxT = true ∧ validP pboxSource = true ∧ Inv failedBench ∧
    failedBench.status ≠ 0x01 := ⟨by decide, by decide, failed_inv, by decide⟩
theorem witness_ResetLatches_uninit : ∃ t, step (readyBench.facing [.rst]) = .next t ∧ readyBench.status ≠ 0x00 ∧
    t.status = 0x00 := ⟨_, rfl, by decide, rfl⟩
theorem witness_ResetLatches_failed : ∃ t, step (failedBench.facing [.rstDropping 0x0000]) = .next t ∧
    phaseOf failedBench.status = some .failed ∧ phaseOf t.status ≠ some .failed := ⟨_, rfl, by decide, by decide⟩
theorem witness_ResetLatches_ports : (∀ e rest, readyBench.schedule = e :: rest → e.isReset = false) ∧
    ∃ t, step readyBench = .next t := ⟨fun _ _ h => (by cases h), _, rfl⟩
theorem witness_InitRunsOncePerReset : readyBench.status ≠ 0x00 ∧
    (∀ e rest, (readyBench.facing [.sequencer]).schedule = e :: rest → e.isReset = false) ∧
    ∃ t, step (readyBench.facing [.sequencer]) = .next t := ⟨by decide, fun _ _ h => by cases h; rfl, _, rfl⟩
theorem witness_InitRunsAfterTheSchedule : (uninitBench.facing [.cmd 0x0000, .issue .enc 256]).status = 0x00 ∧
    ∀ e ∈ (uninitBench.facing [.cmd 0x0000, .issue .enc 256]).schedule, e.isReset = false := by decide
theorem witness_ResetOver : uninitBench.status = 0x00 := rfl
theorem witness_Boot : (validS (unpackS 0x4FEDC9BA87652103) = true ∧ validS (unpackS 0x3333333333333333) = false) ∧
    validP (unpackP 0xD3B0A9) = true ∧ validP (unpackP 0) = false := by decide
theorem witness_IdleStep : failedBench.status ≠ 0x00 := by decide
theorem witness_valid_tables : validS sboxT = true ∧ validP pboxSource = true := by decide
/-- The laws of the stages and of their composition: phase READY under the phase laws. -/
theorem witness_ready_laws : Inv readyBench ∧ readyBench.status = 0x01 := ⟨ready_inv, rfl⟩
theorem witness_StatusPort : Inv failedBench := failed_inv
theorem witness_ValidP_sums : validP pinvSource = true := by decide

end Sys2Proof.Tests
end

section
/-! The family of 30_encoding.md: the three outcomes of the decoder, the fields of a 16-bit word, the response word,
and the slots of the configuration buses; then the statements O4, O6 and O21. -/

namespace Sys2Proof

/-! The decoder, one equation per outcome (R63, R64). -/

theorem decode_of_rsvdField_ne {w : Word} (h : rsvdField w ≠ 0) : decode w = .error .reservedBits := if_neg h

theorem decode_of_reserved_op {w : Word} (h : rsvdField w = 0) (ho : opField w = 6 ∨ opField w = 7) :
    decode w = .error .reservedOp := by
  rcases ho with ho | ho <;> simp [decode, h, ho]

theorem decode_of_op {w : Word} (h : rsvdField w = 0) {op : Op} (ho : opField w = op.number) :
    decode w = .ok (op.instr (dataField w)) := by
  cases op <;> simp [decode, h, ho, Op.number, Op.instr]

theorem Op.number_ne_reserved (op : Op) : op.number ≠ 6 ∧ op.number ≠ 7 := by
  cases op <;> decide

theorem op_number_or_reserved (c : BitVec 3) : (∃ op : Op, c = op.number) ∨ c = 6 ∨ c = 7 := by
  have hc : c = 0 ∨ c = 1 ∨ c = 2 ∨ c = 3 ∨ c = 4 ∨ c = 5 ∨ c = 6 ∨ c = 7 := by
    revert c; decide
  rcases hc with h | h | h | h | h | h | h
  · exact .inl ⟨.sub, h⟩
  · exact .inl ⟨.invsub, h⟩
  · exact .inl ⟨.perm, h⟩
  · exact .inl ⟨.invperm, h⟩
  · exact .inl ⟨.enc, h⟩
  · exact .inl ⟨.dec, h⟩
  · exact .inr h

/-- The illegal words are those of R64. -/
theorem decode_error_iff (w : Word) :
    (∃ e, decode w = .error e) ↔ rsvdField w ≠ 0 ∨ opField w = 6 ∨ opField w = 7 := by
  by_cases h : rsvdField w = 0
  · rcases op_number_or_reserved (opField w) with ⟨op, ho⟩ | ho
    · have hno : ¬ (rsvdField w ≠ 0 ∨ opField w = 6 ∨ opField w = 7) := by
        rw [ho]
        exact not_or.mpr ⟨not_not.mpr h, not_or.mpr op.number_ne_reserved⟩
      exact iff_of_false (fun ⟨e, he⟩ => by simp [decode_of_op h ho] at he) hno
    · exact iff_of_true ⟨_, decode_of_reserved_op h ho⟩ (.inr ho)
  · exact iff_of_true ⟨_, decode_of_rsvdField_ne h⟩ (.inl h)

/-! The three fields of a 16-bit word (R61, R65). -/

/-- A word is put together from its fields in one way. -/
theorem word_eq_append_iff (w : Word) (a : BitVec 5) (c : BitVec 3) (d : Byte) :
    w = a ++ c ++ d ↔ w.extractLsb' 11 5 = a ∧ w.extractLsb' 8 3 = c ∧ w.extractLsb' 0 8 = d := by
  constructor
  · rintro rfl
    refine ⟨?_, ?_, BitVec.extractLsb'_append_eq_right⟩
    · rw [BitVec.extractLsb'_append_eq_of_le (by decide)]
      exact BitVec.extractLsb'_append_eq_left
    · rw [BitVec.extractLsb'_append_eq_of_le (by decide)]
      exact BitVec.extractLsb'_append_eq_right
  · rintro ⟨rfl, rfl, rfl⟩
    rw [BitVec.extractLsb'_append_extractLsb'_eq_extractLsb' (by rfl),
      BitVec.extractLsb'_append_extractLsb'_eq_extractLsb' (by rfl)]
    exact BitVec.extractLsb'_eq_self.symm

namespace Machine

/-! Steps on a command word. -/

theorem step_facing_cmd (s : State) (w : Word) (rest : List Event) :
    step (s.facing (.cmd w :: rest)) = .next (respond (answerTo w (s.taking rest)) (s.taking rest)) :=
  step_cmd (facing_schedule s _)

/-- In phase READY an illegal word's answer is ILLEGAL_COMMAND (R143). -/
theorem answerTo_illegal {w : Word} {s : State} (hc : cfgErr s.status = false) (hr : ready s.status = true)
    {e : DecodeError} (hd : decode w = .error e) : answerTo w s = .error .illegalCommand := by
  simp [answerTo, prologue, hc, hr, hd]

/-! The response word (R65). -/

theorem admits_ok_iff (v : Byte) (w : Word) : (Response.ok v).admits w = true ↔
    w.extractLsb' 11 5 = 0 ∧ w.extractLsb' 8 3 = 0 ∧ w.extractLsb' 0 8 = v := by
  simp only [Response.admits, Bool.and_eq_true, decide_eq_true_iff, and_assoc]
  rfl

theorem admits_error_iff (e : ErrCode) (w : Word) : (Response.error e).admits w = true ↔
    w.extractLsb' 11 5 = 0 ∧ w.extractLsb' 8 3 = e.number := by
  simp only [Response.admits, Bool.and_eq_true, decide_eq_true_iff, and_true]
  rfl

/-- A host reads from a word of a response that response, as long as the response can stand on `rsp` (R140, R144). -/
theorem ofWord_of_admits {r : Response} {w : Word} (hr : r ≠ .error .inputRange) (h : r.admits w = true) :
    Response.ofWord w = some r := by
  cases r with
  | ok v =>
    obtain ⟨hrsvd, hcode, hres⟩ := (admits_ok_iff v w).mp h
    simp [Response.ofWord, hrsvd, hcode, hres]
  | error e =>
    obtain ⟨hrsvd, hcode⟩ := (admits_error_iff e w).mp h
    cases e with
    | inputRange => exact absurd rfl hr
    | configError | notReady | illegalCommand => simp [Response.ofWord, hrsvd, hcode, ErrCode.number]

/-- What a host reads from a word is a response that the word stands for. -/
theorem admits_of_ofWord {r : Response} {w : Word} (h : Response.ofWord w = some r) : r.admits w = true := by
  unfold Response.ofWord at h
  split at h
  next hrsvd =>
    split at h
    next hcode => cases h; exact (admits_ok_iff _ w).mpr ⟨hrsvd, hcode, rfl⟩
    next hcode => cases h; exact (admits_error_iff _ w).mpr ⟨hrsvd, hcode⟩
    next hcode => cases h; exact (admits_error_iff _ w).mpr ⟨hrsvd, hcode⟩
    next hcode => cases h; exact (admits_error_iff _ w).mpr ⟨hrsvd, hcode⟩
    next => cases h
  next => cases h

/-! The slots of a configuration bus (R66). -/

/-- Entries of `w` bits in slots side by side, entry 0 lowest: the one form of `packS` and `packP`. -/
def packSlots {n w : Nat} (N : Nat) (f : Fin n → BitVec w) : BitVec N :=
  (List.finRange n).foldl (fun acc i => acc ||| ((f i).setWidth N <<< (w * i.val))) 0

theorem packS_eq_packSlots (T : STable) : packS T = packSlots 64 fun i : Fin 16 => T[i.val] := rfl

theorem packP_eq_packSlots (P : PTable) : packP P = packSlots 24 fun i : Fin 8 => P[i.val] := rfl

theorem getLsbD_foldl_or {α : Type} {N : Nat} (g : α → BitVec N) (p : Nat) : ∀ (l : List α) (acc : BitVec N),
    (l.foldl (fun acc i => acc ||| g i) acc).getLsbD p = (acc.getLsbD p || l.any fun i => (g i).getLsbD p)
  | [], acc => by simp
  | i :: l, acc => by simp [getLsbD_foldl_or g p l, Bool.or_assoc]

/-- Slots do not overlap: a position in slot `i` and in slot `j` makes them one. -/
theorem slot_unique {w i j k r : Nat} (hk : k < w) (hr : r < w) (h : w * i + k = w * j + r) : i = j := by
  have hw : 0 < w := by omega
  calc i = (w * i + k) / w := by rw [Nat.mul_add_div hw, Nat.div_eq_of_lt hk, Nat.add_zero]
    _ = (w * j + r) / w := by rw [h]
    _ = j := by rw [Nat.mul_add_div hw, Nat.div_eq_of_lt hr, Nat.add_zero]

/-- A bit of an entry moved up by `m` places. -/
theorem getLsbD_moved_iff {w N : Nat} (x : BitVec w) (m p : Nat) :
    (x.setWidth N <<< m).getLsbD p = true ↔ p < N ∧ m ≤ p ∧ x.getLsbD (p - m) = true := by
  have hsub : p < N → p - m < N := by omega
  simp only [BitVec.getLsbD_shiftLeft, BitVec.getLsbD_setWidth, Bool.and_eq_true, decide_eq_true_eq,
    Bool.not_eq_true', decide_eq_false_iff_not, not_lt]
  tauto

/-- A bit of the bus is set exactly when some entry, moved to its slot, sets it. -/
theorem packSlots_getLsbD_iff {n w N : Nat} (f : Fin n → BitVec w) (p : Nat) :
    (packSlots N f).getLsbD p = true ↔ p < N ∧ ∃ j : Fin n, w * j.val ≤ p ∧ (f j).getLsbD (p - w * j.val) = true := by
  simp only [packSlots, getLsbD_foldl_or, BitVec.ofNat_eq_ofNat, BitVec.getLsbD_zero, Bool.false_or,
    List.any_eq_true, List.mem_finRange, true_and, getLsbD_moved_iff, exists_and_left]

theorem packSlots_getLsbD {n w N : Nat} (hN : w * n ≤ N) (f : Fin n → BitVec w) (i : Fin n) {k : Nat} (hk : k < w) :
    (packSlots N f).getLsbD (w * i.val + k) = (f i).getLsbD k := by
  rw [Bool.eq_iff_iff, packSlots_getLsbD_iff]
  constructor
  · rintro ⟨-, j, hle, hj⟩
    obtain rfl : i = j := Fin.ext (slot_unique hk (BitVec.lt_of_getLsbD hj) (by omega))
    simpa using hj
  · intro hi
    have hslot := Nat.mul_le_mul_left w i.isLt
    rw [Nat.mul_succ] at hslot
    exact ⟨by omega, i, Nat.le_add_right _ _, by simpa using hi⟩

/-- Unpacking reads bit k of entry i at bit 4i+k of the bus. -/
theorem unpackS_getLsbD (bus : BitVec 64) (i : Fin 16) (k : Fin 4) :
    (unpackS bus)[i.val].getLsbD k.val = bus.getLsbD (4 * i.val + k.val) := by
  simp [unpackS]

/-- Unpacking reads bit k of entry i at bit 3i+k of the bus. -/
theorem unpackP_getLsbD (bus : BitVec 24) (i : Fin 8) (k : Fin 3) :
    (unpackP bus)[i.val].getLsbD k.val = bus.getLsbD (3 * i.val + k.val) := by
  simp [unpackP]

theorem unpackS_packS (T : STable) : unpackS (packS T) = T := by
  refine Vector.ext fun i hi => BitVec.eq_of_getLsbD_eq fun k hk => ?_
  rw [unpackS_getLsbD (packS T) ⟨i, hi⟩ ⟨k, hk⟩, packS_eq_packSlots, packSlots_getLsbD (by decide) _ _ hk]

theorem unpackP_packP (P : PTable) : unpackP (packP P) = P := by
  refine Vector.ext fun i hi => BitVec.eq_of_getLsbD_eq fun k hk => ?_
  rw [unpackP_getLsbD (packP P) ⟨i, hi⟩ ⟨k, hk⟩, packP_eq_packSlots, packSlots_getLsbD (by decide) _ _ hk]

end Machine

/-! The statements. -/

open Machine

/-- Settles O4: the decoder's three outcomes, and the one answer of `step_facing_cmd`. -/
theorem illegalWordsAreAnsweredAndChangeNothing : Obligations.IllegalWordsAreAnsweredAndChangeNothing := by
  unfold Obligations.IllegalWordsAreAnsweredAndChangeNothing
  refine ⟨decode_error_iff, fun w => ?_, fun s w rest hc hr hill => ?_⟩
  · cases decode w with
    | ok i => exact .inl ⟨i, rfl⟩
    | error e => exact .inr ⟨e, rfl⟩
  · obtain ⟨e, hd⟩ := (decode_error_iff w).mpr hill
    rw [step_facing_cmd, answerTo_illegal (s := s.taking rest) hc hr hd]
    rfl

/-- Settles O6: unpacking reads bit by bit, and slots of a packed bus do not overlap. -/
theorem configurationBusesCarryTheTables : Obligations.ConfigurationBusesCarryTheTables :=
  ⟨unpackS_getLsbD, unpackP_getLsbD, unpackS_packS, unpackP_packP⟩

/-- Settles O21: the words a response admits are told by their fields, and `step_facing_cmd` answers every word. -/
theorem responseWordCarriesCodeAndResult : Obligations.ResponseWordCarriesCodeAndResult := by
  unfold Obligations.ResponseWordCarriesCodeAndResult
  refine ⟨fun v w => ?_, fun e w => ?_, fun r w hr => ⟨ofWord_of_admits hr, admits_of_ofWord⟩, fun s w rest => ?_⟩
  · rw [admits_ok_iff, word_eq_append_iff]; rfl
  · rw [admits_error_iff]
    constructor
    · rintro ⟨hrsvd, hcode⟩
      exact ⟨_, (word_eq_append_iff w _ _ _).mpr ⟨hrsvd, hcode, rfl⟩⟩
    · rintro ⟨x, hx⟩
      obtain ⟨hrsvd, hcode, -⟩ := (word_eq_append_iff w _ _ _).mp hx
      exact ⟨hrsvd, hcode⟩
  · exact ⟨_, _, step_facing_cmd s w rest, respond_rsp _ _⟩

end Sys2Proof
end

section
/-! The family of 40_substitution.md: the word of an operation, the answer of a command for each outcome of the
prologue, and the forms of the substitution helper; then the statements O9 and O8. -/

namespace Sys2Proof

/-! The word of an operation (R63). -/

/-- A word with RSVD clear and an assigned OP is the command of that OP on its DATA. -/
theorem decode_append_number (op : Op) (b : Byte) : decode (0#5 ++ op.number ++ b) = .ok (op.instr b) := by
  obtain ⟨hrsvd, hop, hdata⟩ := (word_eq_append_iff (0#5 ++ op.number ++ b) 0 op.number b).mp rfl
  calc decode (0#5 ++ op.number ++ b)
    _ = .ok (op.instr (dataField (0#5 ++ op.number ++ b))) := decode_of_op hrsvd hop
    _ = .ok (op.instr b) := by rw [dataField, hdata]

namespace Machine

/-! A command's answer, one equation per outcome of the prologue (R80). -/

theorem exec_configError {s : State} (hc : cfgErr s.status = true) (i : Instr) :
    exec i s = .next { s with rsp := some (.error .configError) } :=
  (exec_eq_complete i s).trans (complete_configError hc _)

theorem exec_notReady {s : State} (hc : cfgErr s.status = false) (hr : ready s.status = false) (i : Instr) :
    exec i s = .next { s with rsp := some (.error .notReady) } :=
  (exec_eq_complete i s).trans (complete_notReady hc hr _)

theorem exec_ok {s : State} (hc : cfgErr s.status = false) (hr : ready s.status = true) (i : Instr) :
    exec i s = .next { s with rsp := some (.ok (pureResult i s)) } :=
  (exec_eq_complete i s).trans (complete_ok hc hr _)

/-! The substitution helper (R80). -/

theorem subst_append (T : STable) (h l : Nibble) : subst T (h ++ l) = readS T h ++ readS T l := by
  rw [subst, nibHi_append, nibLo_append]

theorem nibHi_eq_setWidth (b : Byte) : nibHi b = (b >>> 4).setWidth 4 :=
  BitVec.setWidth_ushiftRight_eq_extractLsb.symm

theorem nibLo_eq_setWidth (b : Byte) : nibLo b = b.setWidth 4 :=
  (BitVec.setWidth_eq_extractLsb' (by decide)).symm

/-- The mask of R80 removes nothing that the narrowing to a nibble keeps. -/
theorem setWidth_and_lowMask (b : Byte) : (b &&& 0x0F#8).setWidth 4 = b.setWidth 4 := by
  rw [BitVec.setWidth_and]
  exact BitVec.and_allOnes

theorem append_eq_shiftLeft_or (h l : Nibble) : (h ++ l : Byte) = (h.setWidth 8 <<< 4) ||| l.setWidth 8 :=
  (BitVec.setWidth_eq _).symm.trans BitVec.setWidth_append_eq_shiftLeft_setWidth_or

theorem subst_eq_shiftLeft_or (T : STable) (b : Byte) : subst T b =
    ((readS T ((b >>> 4).setWidth 4)).setWidth 8 <<< 4) ||| (readS T (b.setWidth 4)).setWidth 8 := by
  rw [subst, append_eq_shiftLeft_or, nibHi_eq_setWidth, nibLo_eq_setWidth]

/-- A valid table that exchanges the nibbles 0 and 1 moves the byte 0x00. -/
theorem exists_validS_subst_ne : ∃ (T : STable) (c : Byte), validS T = true ∧ subst T c ≠ c :=
  ⟨#v[1, 0, 2, 3, 4, 5, 6, 7, 8, 9, 10, 11, 12, 13, 14, 15], 0x00, by decide, by decide⟩

/-! SUB in phase READY (R81). -/

theorem exec_sub_ok {s : State} (hc : cfgErr s.status = false) (hr : ready s.status = true) (b : Byte) :
    exec (.sub b) s = .next { s with rsp := some (.ok (subst s.sbox b)) } := exec_ok hc hr (.sub b)

/-- SUB of two given nibbles answers their two table entries. -/
theorem exec_sub_append {s : State} (hc : cfgErr s.status = false) (hr : ready s.status = true) (h l : Nibble) :
    exec (.sub (h ++ l)) s = .next { s with rsp := some (.ok (readS s.sbox h ++ readS s.sbox l)) } := by
  rw [exec_sub_ok hc hr, subst_append]

end Machine

/-! The statements. -/

open Machine

/-- Settles O9: each corner case is a pair of equal nibbles, which SUB looks up one by one (`exec_sub_append`). -/
theorem subSubstitutesBothNibbles : Obligations.SubSubstitutesBothNibbles := by
  unfold Obligations.SubSubstitutesBothNibbles
  intro s b
  refine ⟨decode_append_number .sub b, fun hc hr => ?_, fun hc => exec_configError hc _,
    fun hc hr => exec_notReady hc hr _, exists_validS_subst_ne⟩
  have hpair (n : Nibble) := exec_sub_append hc hr n n
  refine ⟨?_, hpair 0, hpair 15, fun n => ⟨_, hpair n⟩, fun src => ?_⟩
  · rw [exec_sub_ok hc hr, subst_eq_shiftLeft_or]
  · have h0 := hpair 0
    rw [src.s0] at h0
    exact h0

/-- Settles O8: the masks of R80 do not show through the narrowing, and every command ends in `complete`. -/
theorem prologueStopsEveryCommand : Obligations.PrologueStopsEveryCommand := by
  unfold Obligations.PrologueStopsEveryCommand
  refine ⟨fun T b => ?_, fun i s => ⟨fun hc => exec_configError hc i, fun hc hr => exec_notReady hc hr i⟩⟩
  rw [setWidth_and_lowMask, setWidth_and_lowMask, subst_eq_shiftLeft_or]

end Sys2Proof
end

section
/-! The family of 42_cipher.md: undoing a table from both sides, the permutation stage undone, and the answer to a word
as a function of what it reads; then the statements O51 and O28. -/

namespace Sys2Proof

/-- The two forms of a command's word, R67's sum and R61's fields, are one. -/
theorem asm_eq_append (op : Op) (b : Byte) : asm op b = 0#5 ++ op.number ++ b := by
  have hhigh : op.number.setWidth 16 = (0#5 ++ op.number).setWidth 16 := by cases op <;> rfl
  rw [asm, hhigh, ← BitVec.setWidth_append_eq_shiftLeft_setWidth_or, BitVec.setWidth_eq]

theorem decode_asm (op : Op) (b : Byte) : decode (asm op b) = .ok (op.instr b) := by
  rw [asm_eq_append, decode_append_number]

theorem decode_encode : ∀ i : Instr, decode (encode i) = .ok i
  | .sub b => decode_asm .sub b
  | .invsub b => decode_asm .invsub b
  | .perm b => decode_asm .perm b
  | .invperm b => decode_asm .invperm b
  | .enc b => decode_asm .enc b
  | .dec b => decode_asm .dec b

namespace Machine

/-! A table that undoes another is undone by it and is the only one (R85). -/

/-- On finitely many entries a table that undoes another is undone by it. -/
theorem readP_readP_of_inverse {P Q : PTable} (h : ∀ i, readP Q (readP P i) = i) (i : BitPos) :
    readP P (readP Q i) = i :=
  Function.LeftInverse.rightInverse_of_card_le (f := readP Q) (g := readP P) h le_rfl i

theorem readS_readS_of_inverse {T U : STable} (h : ∀ x, readS U (readS T x) = x) (x : Nibble) :
    readS T (readS U x) = x :=
  Function.LeftInverse.rightInverse_of_card_le (f := readS U) (g := readS T) h le_rfl x

theorem stable_ext {T U : STable} (h : ∀ x, readS T x = readS U x) : T = U :=
  Vector.ext fun i hi => h (BitVec.ofFin ⟨i, hi⟩)

theorem readS_inverse_unique {T U V : STable} (hU : ∀ x, readS U (readS T x) = x)
    (hV : ∀ x, readS V (readS T x) = x) : U = V := by
  refine stable_ext fun y => ?_
  have hy : readS T (readS U y) = y := readS_readS_of_inverse hU y
  calc readS U y = readS V (readS T (readS U y)) := (hV _).symm
    _ = readS V y := by rw [hy]

/-! The permutation stage undone (R107). -/

theorem unperm_eq_perm_of_inverse {P Q : PTable} (h : ∀ i, readP Q (readP P i) = i) (c : Byte) :
    unperm P c = perm Q c := by
  rw [unperm, perm, unpermSum_eq_of_inverse h]

/-- Bit i passes through position `Q[i]` and comes back from `P[Q[i]] = i`. -/
theorem unperm_perm_of_inverse {P Q : PTable} (h : ∀ i, readP Q (readP P i) = i) (b : Byte) :
    unperm P (perm P b) = b := by
  rw [unperm_eq_perm_of_inverse h]
  refine BitVec.eq_of_getLsbD_eq fun i hi => ?_
  have hbit : (perm Q (perm P b)).getLsbD (BitVec.ofFin ⟨i, hi⟩ : BitPos).toNat = b.getLsbD i := by
    rw [perm_getLsbD, perm_getLsbD, readP_readP_of_inverse h]
    rfl
  exact hbit

/-! Phase READY under the phase laws (R27). -/

/-- Of the legal values of STATUS only 0x01 has READY set. -/
theorem Inv.status_of_ready {s : State} (h : Inv s) (hr : ready s.status = true) : s.status = 0x01 := by
  have hlegal : ∀ st : Byte, (phaseOf st).isSome = true → ready st = true → st = 0x01 := by decide
  exact hlegal s.status h.phase_legal hr

/-- DEC undoes ENC: the permutation stage comes off first, then the substitution stage (R122). -/
theorem pureResult_dec_enc {s : State} (h : Inv s) (hst : s.status = 0x01) (b : Byte) :
    pureResult (.dec (pureResult (.enc b) s)) s = b := by
  calc subst s.sinv (unperm s.pbox (perm s.pbox (subst s.sbox b)))
    _ = subst s.sinv (subst s.sbox b) := by rw [unperm_perm_of_inverse (h.ready_pinv hst)]
    _ = b := subst_subst_of_inverse (h.ready_sinv hst) b

/-! The answer to a word, and what it depends on. -/

@[simp] theorem answerTo_taking (w : Word) (s : State) (rest : List Event) :
    answerTo w (s.taking rest) = answerTo w s := rfl

@[simp] theorem answerTo_respond (w : Word) (r : Response) (s : State) :
    answerTo w (respond r s) = answerTo w s := rfl

theorem answerTo_of_prologue {s : State} {e : ErrCode} (hp : prologue s = some e) (w : Word) :
    answerTo w s = .error e := by
  simp [answerTo, hp]

theorem answerTo_encode {s : State} (hst : s.status = 0x01) (i : Instr) :
    answerTo (encode i) s = .ok (pureResult i s) := by
  have hp : prologue s = none := by rw [prologue, hst]; rfl
  simp [answerTo, hp, decode_encode]

theorem prologue_congr {s t : State} (h : s.status = t.status) : prologue s = prologue t := by
  rw [prologue, prologue, h]

theorem pureResult_congr {s t : State} (hsbox : s.sbox = t.sbox) (hpbox : s.pbox = t.pbox) (hsinv : s.sinv = t.sinv)
    (i : Instr) : pureResult i s = pureResult i t := by
  cases i <;> simp only [pureResult, hsbox, hpbox, hsinv]

/-- R124: an error depends on STATUS alone, and past the prologue SBOX fixes SINV, the one other table that is read. -/
theorem answerTo_eq_of_inv {s t : State} (hs : Inv s) (ht : Inv t) (hsbox : s.sbox = t.sbox) (hpbox : s.pbox = t.pbox)
    (hstatus : s.status = t.status) (w : Word) : answerTo w s = answerTo w t := by
  have hp : prologue s = prologue t := prologue_congr hstatus
  rcases prologue_cases s with ⟨-, he⟩ | ⟨-, -, he⟩ | ⟨-, hr, -⟩
  · rw [answerTo_of_prologue he, answerTo_of_prologue (hp ▸ he)]
  · rw [answerTo_of_prologue he, answerTo_of_prologue (hp ▸ he)]
  · have hst : s.status = 0x01 := hs.status_of_ready hr
    have hsinv : s.sinv = t.sinv := readS_inverse_unique (hs.ready_sinv hst) (hsbox ▸ ht.ready_sinv (hstatus ▸ hst))
    simp only [answerTo, hp, pureResult_congr hsbox hpbox hsinv]

end Machine

/-! The statements. -/

open Machine

/-- Settles O51: the two steps answer ENC of b and DEC of that, in the same tables (`pureResult_dec_enc`). -/
theorem decOfEncIsTheByte : Obligations.DecOfEncIsTheByte := by
  unfold Obligations.DecOfEncIsTheByte
  intro s b rest rest' hinv hst
  refine ⟨pureResult (.enc b) s, _, _, step_facing_cmd s _ rest, ?_, step_facing_cmd _ _ rest', ?_⟩
  · rw [respond_rsp, answerTo_taking, answerTo_encode hst]
  · rw [respond_rsp, answerTo_taking, answerTo_respond, answerTo_taking, answerTo_encode hst,
      pureResult_dec_enc hinv hst]

/-- Settles O28: all three steps answer by `answerTo`, and the two states agree on it (`answerTo_eq_of_inv`). -/
theorem responseDependsOnWordTablesAndStatus : Obligations.ResponseDependsOnWordTablesAndStatus := by
  unfold Obligations.ResponseDependsOnWordTablesAndStatus
  intro s s' w rest rest' hs hs' hsbox hpbox hstatus
  refine ⟨answerTo w s, _, _, _, step_facing_cmd s w rest, ?_, step_facing_cmd s' w rest', ?_,
    step_facing_cmd _ w rest, ?_⟩
  · rw [respond_rsp, answerTo_taking]
  · rw [respond_rsp, answerTo_taking, answerTo_eq_of_inv hs hs' hsbox hpbox hstatus]
  · rw [respond_rsp, answerTo_taking, answerTo_respond, answerTo_taking]

end Sys2Proof
end

section
/-! The family of 60_exceptions.md: a word that the prologue stops, the sequencer's turn, the fields that INIT writes,
and a step outside phase UNINIT; then the statements O24 and O23. -/

namespace Sys2Proof.Machine

/-! A word that the prologue stops (R141, R142). -/

theorem prologue_of_cfgErr {s : State} (hc : cfgErr s.status = true) : prologue s = some .configError := if_pos hc

theorem prologue_of_not_ready {s : State} (hc : cfgErr s.status = false) (hr : ready s.status = false) :
    prologue s = some .notReady := by
  simp [prologue, hc, hr]

/-- An error of the prologue answers every word, legal or not, and nothing else is written. -/
theorem step_facing_cmd_of_prologue {s : State} {e : ErrCode} (hp : prologue s = some e) (w : Word)
    (rest : List Event) : step (s.facing (.cmd w :: rest)) =
      .next { s with rsp := some (.error e), boundary := none, schedule := rest } := by
  rw [step_facing_cmd, answerTo_taking, answerTo_of_prologue hp]
  rfl

/-! The sequencer's turn and the fields that INIT writes (R161, R162). -/

theorem sequencerTurn_of_pending {s : State} (h : s.status = 0x00) : sequencerTurn s = initStep s :=
  if_pos (decide_eq_true h)

theorem sequencerTurn_of_not_pending {s : State} (h : s.status ≠ 0x00) : sequencerTurn s = s :=
  if_neg (by simpa [initPending] using h)

theorem step_facing_sequencer_of_pending {s : State} (h : s.status = 0x00) (rest : List Event) :
    step (s.facing (.sequencer :: rest)) = .next (initStep (s.taking rest)) :=
  (step_sequencer (facing_schedule s _)).trans (congrArg _ (sequencerTurn_of_pending h))

/-- The fields of STATUS after an INIT that fails. -/
theorem initStatus_fields_of_invalid : ∀ {vs vp : Bool}, vs = false ∨ vp = false →
    cfgErr (initStatus vs vp) = true ∧ ready (initStatus vs vp) = false ∧
      sboxBad (initStatus vs vp) = !vs ∧ pboxBad (initStatus vs vp) = !vp := by
  decide

/-! A step outside phase UNINIT. -/

/-- With INIT not pending, only a reset writes anything of the core. -/
theorem sameCore_of_step {s t : State} (hst : s.status ≠ 0x00)
    (hreset : ∀ e rest, s.schedule = e :: rest → e.isReset = false) (h : step s = .next t) : SameCore s t := by
  have hturn (rest : List Event) : SameCore s (sequencerTurn (s.taking rest)) := by
    rw [sequencerTurn_of_not_pending (s := s.taking rest) hst]
    exact ⟨rfl, rfl, rfl, rfl, rfl⟩
  rcases step_cases h with ⟨-, rfl⟩ | ⟨rest, -, rfl⟩ | ⟨-, rest, w, -, -, rfl⟩ | ⟨-, -, rest, -, -, rfl⟩ |
    ⟨a, b, rest, -, rfl⟩ | ⟨e, rest, hs, he, -⟩
  · exact hturn []
  · exact hturn rest
  · exact ⟨rfl, rfl, rfl, rfl, rfl⟩
  · exact ⟨rfl, rfl, rfl, rfl, rfl⟩
  · exact ⟨rfl, rfl, rfl, rfl, rfl⟩
  · exact absurd he (by simp [hreset e rest hs])

theorem status_ne_zero_of_cfgErr {st : Byte} (h : cfgErr st = true) : st ≠ 0x00 := by
  rintro rfl
  exact absurd h (by decide)

end Sys2Proof.Machine

namespace Sys2Proof
open Machine

/-! The statements. -/

/-- Settles O24: INIT's fields detect the error, the prologue answers every word with it, and STATUS, not 0x00 then,
is kept by every step but a reset. -/
theorem configErrorIsDetectedAndFatal : Obligations.ConfigErrorIsDetectedAndFatal := by
  unfold Obligations.ConfigErrorIsDetectedAndFatal
  refine ⟨fun s rest hst hbad => ?_, fun s w rest hc => step_facing_cmd_of_prologue (prologue_of_cfgErr hc) w rest,
    fun s t hc hreset h => (sameCore_of_step (status_ne_zero_of_cfgErr hc) hreset h).status⟩
  refine ⟨_, step_facing_sequencer_of_pending hst rest, ?_⟩
  rw [initStep_status]
  exact initStatus_fields_of_invalid hbad

/-- Settles O23: without CFG_ERR and READY the prologue stops every word with NOT_READY. -/
theorem notReadyBeforeInit : Obligations.NotReadyBeforeInit := by
  unfold Obligations.NotReadyBeforeInit
  exact fun s w rest hr hc => step_facing_cmd_of_prologue (prologue_of_not_ready hc hr) w rest

end Sys2Proof
end

section
/-! The family of 70_reset_and_hazards.md: what INIT writes, entry by entry, a step that a reset takes, what only a
reset does, and the configuration ports, which no other step reads; then the statements O33, O37 and O40. -/

namespace Sys2Proof.Machine

/-! INIT (R162). -/

theorem readS_ofNat (T : STable) (i : Fin 16) : readS T (BitVec.ofNat 4 i.val) = T[i.val] := by
  simp [readS]

theorem readP_ofNat (P : PTable) (i : Fin 8) : readP P (BitVec.ofNat 3 i.val) = P[i.val] := by
  simp [readP]

/-- `SINV[SBOX[x]] = x` after the generator, with SBOX read by its index. -/
theorem genSinv_entry {T : STable} (hT : validS T = true) (old : STable) (x : Fin 16) :
    readS (genSinv T old) T[x.val] = BitVec.ofNat 4 x.val := by
  rw [← readS_ofNat T x, genSinv_readS hT]

/-- `PINV[PBOX[i]] = i` after the generator, with PBOX read by its index. -/
theorem genPinv_entry {P : PTable} (hP : validP P = true) (old : PTable) (i : Fin 8) :
    readP (genPinv P old) P[i.val] = BitVec.ofNat 3 i.val := by
  rw [← readP_ofNat P i, genPinv_readP hP]

theorem initStatus_of_invalid : ∀ {vs vp : Bool}, (vs && vp) = false →
    initStatus vs vp = 0b0000#4 ++ BitVec.ofBool (!vp) ++ BitVec.ofBool (!vs) ++ 0b1#1 ++ 0b0#1 := by
  decide

theorem initStatus_ne_zero : ∀ vs vp : Bool, initStatus vs vp ≠ 0x00 := by
  decide

theorem step_facing_sequencer_of_not_pending {s : State} (h : s.status ≠ 0x00) (rest : List Event) :
    step (s.facing (.sequencer :: rest)) = .next (s.taking rest) :=
  (step_sequencer (facing_schedule s _)).trans (congrArg _ (sequencerTurn_of_not_pending h))

/-! Reset (R160), and what only a reset does. -/

theorem step_facing_reset (s : State) {e : Event} (he : e.isReset = true) (rest : List Event) :
    step (s.facing (e :: rest)) = .next (applyReset (s.taking rest)) :=
  step_reset (facing_schedule s _) he

/-- Outside phase UNINIT a step that changes STATUS is a reset. -/
theorem exists_reset_of_status_ne {s t : State} (h : step s = .next t) (hst : s.status ≠ 0x00)
    (hne : t.status ≠ s.status) : ∃ e rest, s.schedule = e :: rest ∧ e.isReset = true := by
  by_contra hno
  have hreset : ∀ e rest, s.schedule = e :: rest → e.isReset = false := fun e rest hs =>
    Bool.eq_false_iff.mpr fun he => hno ⟨e, rest, hs, he⟩
  exact hne (sameCore_of_step hst hreset h).status

theorem status_ne_zero_of_failed {st : Byte} (h : phaseOf st = some .failed) : st ≠ 0x00 := by
  rintro rfl
  exact absurd h (by decide)

/-! The configuration ports: between resets they pass through a step unread (R51, R164). -/

theorem initStep_drivePorts (a : BitVec 64) (b : BitVec 24) (s : State) :
    initStep (drivePorts a b s) = drivePorts a b (initStep s) := by
  cases hv : validS s.sbox && validP s.pbox with
  | false => rw [initStep_of_invalid hv, initStep_of_invalid (s := drivePorts a b s) hv]; rfl
  | true =>
    obtain ⟨hs, hp⟩ := Bool.and_eq_true_iff.mp hv
    rw [initStep_of_valid hs hp, initStep_of_valid (s := drivePorts a b s) hs hp]; rfl

theorem sequencerTurn_drivePorts (a : BitVec 64) (b : BitVec 24) (s : State) :
    sequencerTurn (drivePorts a b s) = drivePorts a b (sequencerTurn s) := by
  by_cases hst : s.status = 0x00
  · rw [sequencerTurn_of_pending hst, sequencerTurn_of_pending (s := drivePorts a b s) hst, initStep_drivePorts]
  · rw [sequencerTurn_of_not_pending hst, sequencerTurn_of_not_pending (s := drivePorts a b s) hst]

/-- Other contents of the ports before a step that is no reset show, after it, in the ports at most. -/
theorem step_drivePorts {s t : State} (hreset : ∀ e rest, s.schedule = e :: rest → e.isReset = false)
    (h : step s = .next t) (a : BitVec 64) (b : BitVec 24) :
    ∃ a' b', step (drivePorts a b s) = .next (drivePorts a' b' t) := by
  have hturn (rest : List Event) : sequencerTurn ((drivePorts a b s).taking rest) =
      drivePorts a b (sequencerTurn (s.taking rest)) := sequencerTurn_drivePorts a b (s.taking rest)
  rcases step_cases h with ⟨hs, rfl⟩ | ⟨rest, hs, rfl⟩ | ⟨e, rest, w, hs, he, rfl⟩ | ⟨op, n, rest, hs, hn, rfl⟩ |
    ⟨c, d, rest, hs, rfl⟩ | ⟨e, rest, hs, he, -⟩
  · exact ⟨a, b, (step_nil (s := drivePorts a b s) hs).trans (congrArg _ (hturn []))⟩
  · exact ⟨a, b, (step_sequencer (s := drivePorts a b s) hs).trans (congrArg _ (hturn rest))⟩
  · rcases he with rfl | ⟨op, n, rfl, hn, rfl⟩
    · exact ⟨a, b, step_cmd (s := drivePorts a b s) hs⟩
    · exact ⟨a, b, step_issue_of_le (s := drivePorts a b s) hs hn⟩
  · exact ⟨a, b, step_issue_of_gt (s := drivePorts a b s) hs hn⟩
  · exact ⟨c, d, step_drive (s := drivePorts a b s) hs⟩
  · exact absurd he (by simp [hreset e rest hs])

end Sys2Proof.Machine

namespace Sys2Proof
open Machine

/-! The statements. -/

/-- Settles O33: the pending turn is INIT, whose generators invert valid tables and which otherwise writes STATUS
alone. -/
theorem initValidatesAndDerives : Obligations.InitValidatesAndDerives := by
  unfold Obligations.InitValidatesAndDerives
  intro s rest hst
  have hstep := step_facing_sequencer_of_pending hst rest
  refine ⟨fun hs hp => ⟨genSinv s.sbox s.sinv, genPinv s.pbox s.pinv, genSinv_entry hs _, genPinv_entry hp _, ?_⟩,
    fun hbad => ?_⟩
  · rw [hstep, initStep_of_valid (s := s.taking rest) hs hp]; rfl
  · have hv : (validS s.sbox && validP s.pbox) = false :=
      Bool.eq_false_iff.mpr (hbad ∘ Bool.and_eq_true_iff.mp)
    rw [hstep, initStep_of_invalid (s := s.taking rest) hv, taking_sbox, taking_pbox, initStatus_of_invalid hv]; rfl

/-- Settles O37: outside UNINIT only a reset changes STATUS (`exists_reset_of_status_ne`), INIT never leaves it 0x00,
and other contents of the ports pass through every other step (`step_drivePorts`). -/
theorem resetLatchesTheTables : Obligations.ResetLatchesTheTables := by
  unfold Obligations.ResetLatchesTheTables
  refine ⟨fun s rest => ⟨_, _, _, step_facing_reset s rfl rest⟩, fun s rest => ?_, fun s t h hst ht => ?_,
    fun s t h hs ht => ?_, fun s t a b hreset h => ?_⟩
  · by_cases hst : s.status = 0x00
    · refine ⟨_, step_facing_sequencer_of_pending hst rest, fun _ => ?_, fun hne => absurd hst hne⟩
      rw [initStep_status]
      exact initStatus_ne_zero _ _
    · exact ⟨_, step_facing_sequencer_of_not_pending hst rest, fun h => absurd h hst, fun _ => ⟨rfl, rfl, rfl, rfl, rfl⟩⟩
  · exact exists_reset_of_status_ne h hst fun heq => hst (heq ▸ ht)
  · exact exists_reset_of_status_ne h (status_ne_zero_of_failed hs) fun heq => ht (heq ▸ hs)
  · obtain ⟨a', b', hstep⟩ := step_drivePorts hreset h a b
    exact ⟨_, hstep, ⟨rfl, rfl, rfl, rfl, rfl⟩, rfl, rfl, rfl⟩

/-- Settles O40: both resets are the step of `step_facing_reset`; a command that completes first writes the response
alone, which the reset's step takes away. -/
theorem resetOverAnOutstandingCommand : Obligations.ResetOverAnOutstandingCommand := by
  unfold Obligations.ResetOverAnOutstandingCommand
  refine ⟨fun s w rest => ⟨?_, answerTo w s, _, step_facing_cmd s w _, ?_, ⟨_, step_facing_cmd s w rest, ?_⟩, ?_⟩,
    fun s rest _ => ⟨_, step_facing_reset s rfl rest, ?_⟩⟩
  · rw [step_facing_reset s rfl, step_facing_reset s rfl]
  · rw [respond_rsp, answerTo_taking]
  · rw [respond_rsp, answerTo_taking]
  · rw [step_facing_reset s rfl, step_reset ((respond_schedule _ _).trans (taking_schedule s _)) rfl]; rfl
  · exact ⟨rfl, rfl, rfl⟩

end Sys2Proof
end

section
/-! The family of 30_encoding.md, the commands' words: a word that decodes is an operation's word, what decides it, and
a line of the assembler; then the statements O1, O2, O3, O5 and O7. -/

namespace Sys2Proof

theorem encode_instr (op : Op) (b : Byte) : encode (op.instr b) = asm op b := by
  cases op <;> rfl

/-- A word with RSVD clear and an operation's number in OP is that operation's word. -/
theorem eq_asm_of_fields {w : Word} {op : Op} (hrsvd : rsvdField w = 0) (hop : opField w = op.number) :
    w = asm op (dataField w) := by
  rw [asm_eq_append]
  exact (word_eq_append_iff w _ _ _).mpr ⟨hrsvd, hop, rfl⟩

theorem fields_asm (op : Op) (b : Byte) :
    rsvdField (asm op b) = 0 ∧ opField (asm op b) = op.number ∧ dataField (asm op b) = b :=
  (word_eq_append_iff (asm op b) 0 op.number b).mp (asm_eq_append op b)

/-- A word that is not illegal has an operation's number in OP. -/
theorem fields_of_not_illegal {w : Word} (h : ¬ (rsvdField w ≠ 0 ∨ opField w = 6 ∨ opField w = 7)) :
    rsvdField w = 0 ∧ ∃ op : Op, opField w = op.number := by
  obtain ⟨hrsvd, hop⟩ := not_or.mp h
  exact ⟨not_not.mp hrsvd, (op_number_or_reserved (opField w)).resolve_right hop⟩

/-- A word that decodes is the word of one of the six operations, on its DATA. -/
theorem exists_op_of_decode {w : Word} {i : Instr} (h : decode w = .ok i) :
    ∃ op : Op, i = op.instr (dataField w) ∧ w = asm op (dataField w) := by
  have hlegal : ¬ (rsvdField w ≠ 0 ∨ opField w = 6 ∨ opField w = 7) := by
    rw [← decode_error_iff, h]
    rintro ⟨e, ⟨⟩⟩
  obtain ⟨hrsvd, op, hop⟩ := fields_of_not_illegal hlegal
  rw [decode_of_op hrsvd hop] at h
  exact ⟨op, (Except.ok.inj h).symm, eq_asm_of_fields hrsvd hop⟩

/-- Each legal word has one meaning (R63). -/
theorem encode_of_decode {w : Word} {i : Instr} (h : decode w = .ok i) : encode i = w := by
  obtain ⟨op, rfl, hw⟩ := exists_op_of_decode h
  rw [encode_instr, ← hw]

/-- The match of R63 on the upper byte: the mask clears DATA and keeps RSVD and OP. -/
theorem and_highMask_eq_iff (w : Word) (op : Op) :
    w &&& 0xFF00#16 = asm op 0 ↔ rsvdField w = 0 ∧ opField w = op.number := by
  have hrsvd : (w &&& 0xFF00#16).extractLsb' 11 5 = rsvdField w := by
    rw [BitVec.extractLsb'_and]; exact BitVec.and_allOnes
  have hop : (w &&& 0xFF00#16).extractLsb' 8 3 = opField w := by
    rw [BitVec.extractLsb'_and]; exact BitVec.and_allOnes
  have hdata : (w &&& 0xFF00#16).extractLsb' 0 8 = 0 := by
    rw [BitVec.extractLsb'_and]; exact BitVec.and_zero
  rw [asm_eq_append, word_eq_append_iff, hrsvd, hop, hdata]
  simp only [and_true]
  rfl

/-- A word is an operation's command on its DATA exactly when the upper byte matches (R63). -/
theorem decode_eq_instr_iff (w : Word) (op : Op) :
    decode w = .ok (op.instr (dataField w)) ↔ w &&& 0xFF00#16 = asm op 0 := by
  rw [and_highMask_eq_iff]
  constructor
  · intro h
    have hw : asm op (dataField w) = w := (encode_instr op _).symm.trans (encode_of_decode h)
    obtain ⟨hrsvd, hop, -⟩ := fields_asm op (dataField w)
    rw [hw] at hrsvd hop
    exact ⟨hrsvd, hop⟩
  · rintro ⟨hrsvd, hop⟩
    exact decode_of_op hrsvd hop

theorem dataField_eq_setWidth (w : Word) : dataField w = w.setWidth 8 :=
  (BitVec.setWidth_eq_extractLsb' (by decide)).symm

namespace Machine

/-! A line of the assembler (R67). -/

theorem ne_word_of_mnemonicOp {m : List Char} {op : Op} (h : mnemonicOp m = some op) :
    m ≠ ['.', 'w', 'o', 'r', 'd'] := by
  rintro rfl
  exact absurd h (by simp [mnemonicOp])

theorem assembleParts_mnemonic {m lit : List Char} {op : Op} {n : Nat} (hm : mnemonicOp m = some op)
    (hlit : literalValue lit = some n) :
    assembleParts [m, lit] = if n ≤ 255 then .ok (some (asm op (BitVec.ofNat 8 n))) else .error .outOfRange := by
  simp [assembleParts, ne_word_of_mnemonicOp hm, hm, hlit, fitsByte]

end Machine

/-! The statements. -/

open Machine

/-- Settles O1: each command's word has RSVD clear, its number in OP and its operand in DATA (`decode_encode`). -/
theorem decodeOfEncodeIsTheCommand : Obligations.DecodeOfEncodeIsTheCommand := decode_encode

/-- Settles O2: a word that decodes is an operation's word on its DATA (`encode_of_decode`). -/
theorem encodeOfDecodeIsTheWord : Obligations.EncodeOfDecodeIsTheWord := fun _ _ => encode_of_decode

/-- Settles O3: the upper byte fixes RSVD and OP, which are all that selects a command (`decode_eq_instr_iff`). -/
theorem opFieldSelectsTheOperation : Obligations.OpFieldSelectsTheOperation := by
  unfold Obligations.OpFieldSelectsTheOperation
  refine ⟨⟨rfl, rfl, rfl, rfl, rfl, rfl⟩, fun b => ⟨rfl, rfl, rfl, rfl, rfl, rfl⟩, fun w op => ?_, fun w ⟨i, h⟩ => ?_⟩
  · have hzero : asm op 0 = op.number.setWidth 16 <<< 8 := BitVec.or_zero
    rw [← dataField_eq_setWidth, decode_eq_instr_iff, hzero]
  · obtain ⟨op, -, hw⟩ := exists_op_of_decode h
    exact ⟨op, dataField w, hw⟩

/-- Settles O5: ten closed words, decoded. -/
theorem writtenOutWordsDecode : Obligations.WrittenOutWordsDecode := by
  unfold Obligations.WrittenOutWordsDecode
  decide

/-- Settles O7: a mnemonic is not `.word`, and its literal is checked before the word is formed. -/
theorem assemblerRefusesWideLiterals : Obligations.AssemblerRefusesWideLiterals :=
  ⟨fun _ _ _ _ => assembleParts_mnemonic, decode_asm⟩

end Sys2Proof
end

section
/-! The phases (10_state.md R27, 70_reset_and_hazards.md R160 to R164): the phase laws after INIT, a reset and any other
event, the length of a schedule, and the boot order; then the statements O29, O30, O31, O32, O38, O39, O41, O42, O43,
O44 and O52. -/

namespace Sys2Proof.Machine

/-! STATUS (R26, R27). -/

theorem status_cases {st : Byte} (h : (phaseOf st).isSome = true) :
    st = 0x00 ∨ st = 0x01 ∨ st = 0x06 ∨ st = 0x0A ∨ st = 0x0E := by
  unfold phaseOf at h
  split_ifs at h with h0 h1 hfailed
  · exact .inl h0
  · exact .inr (.inl h1)
  · exact .inr (.inr hfailed)
  · cases h

theorem phaseOf_initStatus : ∀ vs vp : Bool,
    phaseOf (initStatus vs vp) = some .ready ∨ phaseOf (initStatus vs vp) = some .failed := by
  decide

/-! The phase laws. -/

/-- The phase laws speak of the core alone. -/
theorem Inv.of_sameCore {s t : State} (h : Inv s) (hst : SameCore s t) : Inv t := by
  obtain ⟨hlegal, hvalid, hsinv, hpinv, hfailed⟩ := h
  obtain ⟨hsbox, hpbox, hsinv', hpinv', hstatus⟩ := hst
  constructor <;> simpa only [hsbox, hpbox, hsinv', hpinv', hstatus]

/-- In phase UNINIT nothing is asked of the tables. -/
theorem inv_of_uninit {s : State} (h : s.status = 0x00) : Inv s := by
  have hne : s.status ≠ 0x01 := by rw [h]; decide
  refine ⟨by rw [h]; rfl, fun hr => absurd hr hne, fun hr => absurd hr hne, fun hr => absurd hr hne, fun hc => ?_⟩
  exact absurd h (status_ne_zero_of_cfgErr hc)

/-- INIT ends in a lawful phase: the generators invert valid tables, and the two fields name invalid ones. -/
theorem inv_initStep (s : State) : Inv (initStep s) := by
  cases hv : validS s.sbox && validP s.pbox with
  | true =>
    obtain ⟨hs, hp⟩ := Bool.and_eq_true_iff.mp hv
    rw [initStep_of_valid hs hp]
    exact ⟨rfl, fun _ => ⟨hs, hp⟩, fun _ => genSinv_readS hs _, fun _ => genPinv_readP hp _,
      fun hc => absurd hc (show ¬ cfgErr 0x01 = true by decide)⟩
  | false =>
    rw [initStep_of_invalid hv]
    obtain ⟨-, hr, hsbad, hpbad⟩ := initStatus_fields_of_invalid (Bool.and_eq_false_iff.mp hv)
    have hne : initStatus (validS s.sbox) (validP s.pbox) ≠ 0x01 := by
      intro h
      rw [h] at hr
      exact absurd hr (by decide)
    refine ⟨?_, fun h => absurd h hne, fun h => absurd h hne, fun h => absurd h hne, fun _ => ⟨hsbad, hpbad⟩⟩
    rcases phaseOf_initStatus (validS s.sbox) (validP s.pbox) with h | h <;> exact Option.isSome_of_eq_some h

theorem inv_sequencerTurn {s : State} (h : Inv s) : Inv (sequencerTurn s) := by
  by_cases hst : s.status = 0x00
  · rw [sequencerTurn_of_pending hst]
    exact inv_initStep s
  · rwa [sequencerTurn_of_not_pending hst]

/-- INIT and reset establish the phase laws, and no other event writes the core. -/
theorem inv_of_step {s t : State} (h : Inv s) (hstep : step s = .next t) : Inv t := by
  have hsame {u : State} (hu : SameCore s u) : Inv u := h.of_sameCore hu
  have hturn (rest : List Event) : Inv (sequencerTurn (s.taking rest)) :=
    inv_sequencerTurn (hsame ⟨rfl, rfl, rfl, rfl, rfl⟩)
  rcases step_cases hstep with ⟨-, rfl⟩ | ⟨rest, -, rfl⟩ | ⟨-, rest, w, -, -, rfl⟩ | ⟨-, -, rest, -, -, rfl⟩ |
    ⟨a, b, rest, -, rfl⟩ | ⟨e, rest, -, -, rfl⟩
  · exact hturn []
  · exact hturn rest
  · exact hsame ⟨rfl, rfl, rfl, rfl, rfl⟩
  · exact hsame ⟨rfl, rfl, rfl, rfl, rfl⟩
  · exact hsame ⟨rfl, rfl, rfl, rfl, rfl⟩
  · exact inv_of_uninit (applyReset_status _)

/-! The schedule gets shorter by one event a step. -/

theorem exists_step_of_cons {s : State} {e : Event} {rest : List Event} (h : s.schedule = e :: rest) :
    ∃ t, step s = .next t ∧ t.schedule = rest := by
  cases e with
  | cmd w => exact ⟨_, step_cmd h, rfl⟩
  | issue op n =>
    rcases le_or_gt n 255 with hn | hn
    · exact ⟨_, step_issue_of_le h hn, rfl⟩
    · exact ⟨_, step_issue_of_gt h hn, rfl⟩
  | sequencer => exact ⟨_, step_sequencer h, sequencerTurn_schedule _⟩
  | drive a b => exact ⟨_, step_drive h, rfl⟩
  | rst => exact ⟨_, step_reset h rfl, rfl⟩
  | rstDropping w => exact ⟨_, step_reset h rfl, rfl⟩

theorem exists_step (s : State) : ∃ t, step s = .next t := by
  cases hs : s.schedule with
  | nil => exact ⟨_, step_nil hs⟩
  | cons e rest =>
    obtain ⟨t, ht, -⟩ := exists_step_of_cons hs
    exact ⟨t, ht⟩

/-- After the sequencer's turn INIT has run. -/
theorem sequencerTurn_status_ne_zero (s : State) : (sequencerTurn s).status ≠ 0x00 := by
  by_cases hst : s.status = 0x00
  · rw [sequencerTurn_of_pending hst, initStep_status]
    exact initStatus_ne_zero _ _
  · rwa [sequencerTurn_of_not_pending hst]

/-- The step after the last scheduled event is the sequencer's turn, whatever the events were. -/
theorem steps_past_schedule : ∀ (events : List Event) (s : State), s.schedule = events →
    ∃ t, steps (events.length + 1) s = .next t ∧ t.status ≠ 0x00
  | [], s, hs => ⟨_, steps_succ (step_nil hs) 0, sequencerTurn_status_ne_zero _⟩
  | e :: rest, s, hs => by
    obtain ⟨u, hu, hrest⟩ := exists_step_of_cons hs
    obtain ⟨t, ht, hne⟩ := steps_past_schedule rest u hrest
    exact ⟨t, (steps_succ hu _).trans ht, hne⟩

/-! The boot order (R164). -/

/-- The core after `drive a b` and `rst`, about to run INIT. -/
def latched (a : BitVec 64) (b : BitVec 24) (s : State) (rest : List Event) : State :=
  (applyReset ((drivePorts a b s).taking (.sequencer :: rest))).taking rest

theorem steps_boot (s : State) (a : BitVec 64) (b : BitVec 24) (rest : List Event) (k : Nat) :
    steps (k + 3) (s.facing (.drive a b :: .rst :: .sequencer :: rest)) =
      steps k (initStep (latched a b s rest)) := by
  have hdrive : step (s.facing (.drive a b :: .rst :: .sequencer :: rest)) =
      .next (drivePorts a b (s.taking (.rst :: .sequencer :: rest))) := step_drive rfl
  have hreset : step (drivePorts a b (s.taking (.rst :: .sequencer :: rest))) =
      .next (applyReset ((drivePorts a b s).taking (.sequencer :: rest))) := step_reset rfl rfl
  have hinit : step (applyReset ((drivePorts a b s).taking (.sequencer :: rest))) =
      .next (initStep (latched a b s rest)) := (step_sequencer rfl).trans (congrArg _ (sequencerTurn_of_pending rfl))
  rw [steps_succ hdrive, steps_succ hreset, steps_succ hinit]

/-- STATUS after the boot order tells which of the driven tables are valid. -/
theorem boot_status (a : BitVec 64) (b : BitVec 24) (s : State) (rest : List Event) :
    (initStep (latched a b s rest)).status = initStatus (validS (unpackS a)) (validP (unpackP b)) :=
  initStep_status _

/-- Booting with valid tables on the ports ends in phase READY under the phase laws, before the later events. -/
theorem exists_ready_of_boot (s : State) {T : STable} {P : PTable} (hT : validS T = true) (hP : validP P = true)
    (rest : List Event) : ∃ v, Inv v ∧ v.status = 0x01 ∧ v.schedule = rest ∧ ∀ k,
      steps (k + 3) (s.facing (.drive (packS T) (packP P) :: .rst :: .sequencer :: rest)) = steps k v := by
  refine ⟨_, inv_initStep _, ?_, initStep_schedule _, steps_boot s (packS T) (packP P) rest⟩
  rw [boot_status, unpackS_packS, unpackP_packP, hT, hP]
  rfl

theorem facing_of_schedule {s : State} {events : List Event} (h : s.schedule = events) : s.facing events = s := by
  subst h
  rfl

end Sys2Proof.Machine

namespace Sys2Proof
open Machine

/-! The statements. -/

/-- Settles O29, by what each kind of event does to the core (`inv_of_step`). -/
theorem everyStepKeepsThePhaseLaws : Obligations.EveryStepKeepsThePhaseLaws := fun _ _ => inv_of_step

/-- Settles O30: reset leaves phase UNINIT, where the laws ask nothing of the tables. -/
theorem resetMeetsThePhaseLaws : Obligations.ResetMeetsThePhaseLaws :=
  ⟨State.reset_status, inv_of_uninit State.reset_status⟩

/-- Settles O31: the fields of the five legal values of STATUS. -/
theorem statusFieldsAgree : Obligations.StatusFieldsAgree := by
  unfold Obligations.StatusFieldsAgree
  intro s hinv
  have hcases := status_cases hinv.phase_legal
  refine ⟨hcases, ?_⟩
  rcases hcases with h | h | h | h | h <;> rw [h] <;> decide

/-- Settles O32: the port's mask clears bits 7:4, which no legal value of STATUS has set. -/
theorem statusPortReadsReservedAsZero : Obligations.StatusPortReadsReservedAsZero := by
  unfold Obligations.StatusPortReadsReservedAsZero
  refine ⟨fun s => ⟨?_, ?_⟩, fun s hinv => ?_⟩
  · rw [State.statusPort, BitVec.extractLsb'_and]
    exact BitVec.and_zero
  · rw [State.statusPort, BitVec.extractLsb'_and]
    exact BitVec.and_allOnes
  · rw [State.statusPort]
    rcases status_cases hinv.phase_legal with h | h | h | h | h <;> rw [h] <;> rfl

/-- Settles O38: INIT writes a STATUS of phase READY or FAILED, and outside UNINIT only a reset writes the core. -/
theorem initRunsOncePerReset : Obligations.InitRunsOncePerReset := by
  unfold Obligations.InitRunsOncePerReset
  refine ⟨fun s rest hst => ⟨_, step_facing_sequencer_of_pending hst rest, ?_⟩,
    fun s t hst hreset h => sameCore_of_step hst hreset h⟩
  rw [initStep_status]
  exact phaseOf_initStatus _ _

/-- Settles O39, by induction on the schedule (`steps_past_schedule`). -/
theorem initRunsAfterTheSchedule : Obligations.InitRunsAfterTheSchedule :=
  fun s _ _ => steps_past_schedule s.schedule s rfl

/-- Settles O41: a drive event is `drivePorts` on the state with the event taken. -/
theorem drivingThePortsChangesNoTable : Obligations.DrivingThePortsChangesNoTable :=
  fun s _ _ _ => step_drive (facing_schedule s _)

/-- Settles O42: three steps lead to INIT on the latched tables, whose validity STATUS then tells. -/
theorem bootReachesReadyOrFailed : Obligations.BootReachesReadyOrFailed := by
  unfold Obligations.BootReachesReadyOrFailed
  intro s a b
  have hstatus := boot_status a b s []
  refine ⟨_, steps_boot s a b [] 0, inv_initStep _, initStep_sbox _, initStep_pbox _, ?_⟩
  refine ⟨fun hs hp => ?_, fun hs hp => ?_, fun hs hp => ?_, fun hs hp => ?_⟩ <;> rw [hstatus, hs, hp] <;> rfl

/-- Settles O43: each kind of event, and an empty schedule, has a step lemma. -/
theorem everyStepHasANextState : Obligations.EveryStepHasANextState := exists_step

/-- Settles O44: the sequencer's turn does nothing while INIT is not pending. -/
theorem idleStepChangesNothing : Obligations.IdleStepChangesNothing :=
  fun s hst => (step_nil (facing_schedule s _)).trans (congrArg _ (sequencerTurn_of_not_pending (s := s.taking []) hst))

/-- Settles O52: valid tables boot into phase READY (`exists_ready_of_boot`), where the round trip is O51. -/
theorem bootedCoreRoundTripsEveryByte : Obligations.BootedCoreRoundTripsEveryByte := by
  unfold Obligations.BootedCoreRoundTripsEveryByte
  intro s T P b hT hP
  obtain ⟨v, hinv, hst, hsched, hboot⟩ := exists_ready_of_boot s hT hP [.cmd (encode (.enc b))]
  obtain ⟨r, t, u, ht, hrt, hu, hru⟩ := decOfEncIsTheByte v b [] [] hinv hst
  rw [facing_of_schedule hsched] at ht
  exact ⟨r, t, u, (hboot 1).trans (steps_succ ht 0), hrt, steps_succ hu 0, hru⟩

end Sys2Proof
end

section
/-! The commands and their words: the answer in phase READY, the bits of the permutation stage, the source's rule and
known entries, and what a step does with a word; then the statements O10 to O20, O22, O25, O26 and O27. -/

namespace Sys2Proof.Machine

/-! A command in phase READY (R80). -/

theorem exec_ready {s : State} (hst : s.status = 0x01) (i : Instr) :
    exec i s = .next { s with rsp := some (.ok (pureResult i s)) } :=
  exec_ok (by rw [hst]; rfl) (by rw [hst]; rfl) i

theorem resultOf_ok {s : State} (hc : cfgErr s.status = false) (hr : ready s.status = true) (i : Instr) :
    resultOf i s = some (pureResult i s) := by
  rw [resultOf, exec_ok hc hr]
  rfl

theorem resultOf_ready {s : State} (hst : s.status = 0x01) (i : Instr) : resultOf i s = some (pureResult i s) :=
  resultOf_ok (by rw [hst]; rfl) (by rw [hst]; rfl) i

/-- RESULT depends on STATUS and on what the command's meaning hands to `complete`. -/
theorem resultOf_congr {s t : State} (hstatus : s.status = t.status) {i : Instr} (h : pureResult i s = pureResult i t) :
    resultOf i s = resultOf i t := by
  have hp : prologue s = prologue t := prologue_congr hstatus
  rw [resultOf, resultOf, exec_eq_complete, exec_eq_complete, complete, complete, h, hp]
  cases prologue t <;> rfl

/-! The permutation stage, bit by bit (R100, R101). -/

/-- `perm_getLsbD` with the rule read by its index. -/
theorem perm_bit (P : PTable) (b : Byte) (i : Fin 8) : (perm P b).getLsbD i.val = b.getLsbD P[i.val].toNat :=
  perm_getLsbD P b (BitVec.ofFin i)

/-- A valid rule scatters bit i to position `P[i]`, as its inverse gathers it from there. -/
theorem unperm_bit {P : PTable} (hP : validP P = true) (c : Byte) (i : Fin 8) :
    (unperm P c).getLsbD P[i.val].toNat = c.getLsbD i.val := by
  have hinv := genPinv_readP hP P
  calc (unperm P c).getLsbD P[i.val].toNat
    _ = (perm (genPinv P P) c).getLsbD (readP P (BitVec.ofFin i)).toNat := by rw [unperm_eq_perm_of_inverse hinv]; rfl
    _ = c.getLsbD (readP (genPinv P P) (readP P (BitVec.ofFin i))).toNat := perm_getLsbD _ _ _
    _ = c.getLsbD i.val := by rw [hinv]; rfl

/-- Exchanging the nibbles 0 and 1 and exchanging the bit positions 0 and 1 do not commute. -/
theorem exists_stages_not_commuting : ∃ (T : STable) (P : PTable) (b : Byte), validS T = true ∧ validP P = true ∧
    perm P (subst T b) ≠ subst T (perm P b) :=
  ⟨#v[1, 0, 2, 3, 4, 5, 6, 7, 8, 9, 10, 11, 12, 13, 14, 15], #v[1, 0, 2, 3, 4, 5, 6, 7], 0x00, by decide, by decide,
    by decide⟩

/-! The source's rule and known entries (R6). -/

theorem SourceInstance.subst_FF {T : STable} {P : PTable} (src : SourceInstance T P) : subst T 0xFF = 0x44 := by
  have h := subst_append T 15 15
  rw [src.s15] at h
  exact h

theorem SourceInstance.subst_A5 {T : STable} {P : PTable} (src : SourceInstance T P) : subst T 0xA5 = 0x96 := by
  have h := subst_append T 10 5
  rw [src.s10, src.s5] at h
  exact h

theorem SourceInstance.perm_01 {T : STable} {P : PTable} (src : SourceInstance T P) : perm P 0x01 = 0x08 := by
  rw [src.rule]; decide

theorem SourceInstance.perm_96 {T : STable} {P : PTable} (src : SourceInstance T P) : perm P 0x96 = 0x65 := by
  rw [src.rule]; decide

/-! A step on a command word (R145). -/

theorem step_facing_cmd_of_decode {w : Word} {i : Instr} (hd : decode w = .ok i) (s : State) (rest : List Event) :
    step (s.facing (.cmd w :: rest)) = exec i (s.taking rest) := by
  have haccept : step (s.facing (.cmd w :: rest)) = acceptWord w (s.taking rest) := rfl
  rw [haccept, acceptWord, hd]

/-- Past the prologue an illegal word is answered ILLEGAL_COMMAND (R143). -/
theorem step_facing_cmd_of_illegal {s : State} {w : Word} (hc : cfgErr s.status = false) (hr : ready s.status = true)
    (hill : rsvdField w ≠ 0 ∨ opField w = 6 ∨ opField w = 7) (rest : List Event) :
    step (s.facing (.cmd w :: rest)) =
      .next { s with rsp := some (.error .illegalCommand), boundary := none, schedule := rest } := by
  obtain ⟨-, -, hanswer⟩ := illegalWordsAreAnsweredAndChangeNothing
  exact hanswer s w rest hc hr hill

theorem tableWord_toNat (w : Word) : tableWord 16 w.toNat = w := by
  rw [tableWord, Nat.mod_eq_of_lt w.isLt, BitVec.ofNat_toNat, BitVec.setWidth_eq]

theorem withFetchWord_eq_facing (s : State) (w : Word) :
    s.withFetchWord 16 w.toNat = s.facing (.cmd w :: s.schedule) := by
  rw [State.withFetchWord, tableWord_toNat]
  rfl

/-- What stands on `rsp` after a step is the answer to a word. -/
theorem exists_answerTo_of_rsp {s t : State} {r : Response} (h : step s = .next t) (hr : t.rsp = some r) :
    ∃ w u, r = answerTo w u := by
  rcases step_cases h with ⟨-, rfl⟩ | ⟨rest, -, rfl⟩ | ⟨-, rest, w, -, -, rfl⟩ | ⟨-, -, rest, -, -, rfl⟩ |
    ⟨a, b, rest, -, rfl⟩ | ⟨e, rest, -, -, rfl⟩
  · simp at hr
  · simp at hr
  · exact ⟨w, _, (Option.some.inj hr).symm⟩
  · simp at hr
  · simp at hr
  · simp at hr

/-! A step forgets the last answers (R31, R147). -/

/-- A step first takes the last answers away, so that it is the same without them. -/
theorem step_respond_taking (r : Response) (s : State) (rest : List Event) :
    step (respond r (s.taking rest)) = step (s.facing rest) := rfl

theorem SameCore.trans {s t u : State} (hst : SameCore s t) (htu : SameCore t u) : SameCore s u :=
  ⟨htu.sbox.trans hst.sbox, htu.pbox.trans hst.pbox, htu.sinv.trans hst.sinv, htu.pinv.trans hst.pinv,
    htu.status.trans hst.status⟩

/-- A word is answered and gone: the core is the same, and so is the next step, whatever comes then. -/
theorem exists_step_of_word (s : State) (w : Word) (rest : List Event) : ∃ u, step (s.facing (.cmd w :: rest)) = .next u ∧
    u.facing rest = u ∧ SameCore s u ∧ ∀ later, step (u.facing later) = step (s.facing later) :=
  ⟨_, step_facing_cmd s w rest, rfl, ⟨rfl, rfl, rfl, rfl, rfl⟩, fun _ => rfl⟩

theorem steps_words : ∀ (words : List Word) (s : State) (later : List Event), ∃ t : State,
    steps words.length (s.facing (words.map Event.cmd ++ later)) = .next t ∧
      SameCore s t ∧ t.schedule = later ∧ step t = step (s.facing later)
  | [], s, later => ⟨s.facing later, rfl, ⟨rfl, rfl, rfl, rfl, rfl⟩, rfl, rfl⟩
  | w :: words, s, later => by
    obtain ⟨u, hu, hrest, hsame, hforgot⟩ := exists_step_of_word s w (words.map Event.cmd ++ later)
    obtain ⟨t, ht, hcore, hsched, hnext⟩ := steps_words words u later
    rw [hrest] at ht
    exact ⟨t, (steps_succ hu _).trans ht, hsame.trans hcore, hsched, hnext.trans (hforgot later)⟩

end Sys2Proof.Machine

namespace Sys2Proof
open Machine

/-! The statements. -/

/-- Settles O10: INVSUB is the substitution helper on SINV. -/
theorem invsubReadsTheInverseTable : Obligations.InvsubReadsTheInverseTable := by
  unfold Obligations.InvsubReadsTheInverseTable
  intro s c
  refine ⟨decode_append_number .invsub c, fun hc hr => ?_⟩
  rw [exec_ok hc hr, pureResult, subst_eq_shiftLeft_or]

/-- Settles O11: PERM answers the gather, bit by bit (`perm_bit`). -/
theorem permGathersBits : Obligations.PermGathersBits := by
  unfold Obligations.PermGathersBits
  exact fun s b => ⟨decode_append_number .perm b, fun hc hr => ⟨_, exec_ok hc hr (.perm b), perm_bit s.pbox b⟩⟩

/-- Settles O12: INVPERM answers the scatter, bit by bit (`unperm_bit`). -/
theorem invpermScattersBits : Obligations.InvpermScattersBits := by
  unfold Obligations.InvpermScattersBits
  exact fun s c => ⟨decode_append_number .invperm c, fun hc hr =>
    ⟨_, exec_ok hc hr (.invperm c), fun hP => unperm_bit hP c⟩⟩

/-- Settles O13: ENC gathers the bits of SUB's answer, and two exchanges show that the order matters. -/
theorem encIsPermAfterSub : Obligations.EncIsPermAfterSub := by
  unfold Obligations.EncIsPermAfterSub
  exact ⟨fun s b => ⟨decode_append_number .enc b, fun hc hr =>
    ⟨_, _, exec_ok hc hr (.sub b), exec_ok hc hr (.enc b), perm_bit s.pbox (subst s.sbox b)⟩⟩,
    exists_stages_not_commuting⟩

/-- Settles O14: DEC looks both nibbles of INVPERM's answer up in SINV. -/
theorem decIsInvsubAfterInvperm : Obligations.DecIsInvsubAfterInvperm := by
  unfold Obligations.DecIsInvsubAfterInvperm
  exact fun s c => ⟨decode_append_number .dec c, fun hc hr =>
    ⟨_, _, exec_ok hc hr (.invperm c), exec_ok hc hr (.dec c), nibHi_subst s.sinv _, nibLo_subst s.sinv _⟩⟩

/-- Settles O15: every command ends in `respond` (`exec_eq_respond`), which writes the response alone. -/
theorem commandsWriteOnlyTheResponse : Obligations.CommandsWriteOnlyTheResponse := by
  unfold Obligations.CommandsWriteOnlyTheResponse
  intro i s t h
  obtain ⟨r, hr⟩ := exec_eq_respond i s
  obtain rfl : respond r s = t := Host.Outcome.next.inj (hr.symm.trans h)
  simp

/-- Settles O16: the other tables do not occur in the command's meaning (`resultOf_congr`). -/
theorem commandsReadOnlyTheirTables : Obligations.CommandsReadOnlyTheirTables := by
  unfold Obligations.CommandsReadOnlyTheirTables
  intro s T U P Q b
  refine ⟨?_, ?_, ?_, ?_, ?_, ?_⟩ <;> apply resultOf_congr <;> rfl

/-- Settles O17: the source's rule and entries give the results of SUB, PERM and ENC, which INVSUB, INVPERM and DEC
undo. -/
theorem sourceInstanceExamplesHold : Obligations.SourceInstanceExamplesHold := by
  unfold Obligations.SourceInstanceExamplesHold
  intro s hinv hst src
  have hinvsub : subst s.sinv 0x44 = 0xFF := by
    rw [← src.subst_FF, subst_subst_of_inverse (hinv.ready_sinv hst)]
  have hinvperm : unperm s.pbox 0x08 = 0x01 := by
    rw [← src.perm_01, unperm_perm_of_inverse (hinv.ready_pinv hst)]
  have henc : pureResult (.enc 0xA5) s = 0x65 := by
    rw [pureResult, src.subst_A5, src.perm_96]
  have hdec : pureResult (.dec 0x65) s = 0xA5 := by
    rw [← henc, pureResult_dec_enc hinv hst]
  refine ⟨?_, ?_, ?_, ?_, ?_, ?_⟩ <;> rw [exec_ready hst]
  · rw [pureResult, src.subst_FF]
  · rw [pureResult, hinvsub]
  · rw [pureResult, src.perm_01]
  · rw [pureResult, hinvperm]
  · rw [henc]
  · rw [hdec]

/-- Settles O18: `acceptWord` runs what the word decodes to, and a placed word is the next event. -/
theorem stepRunsTheDecodedCommand : Obligations.StepRunsTheDecodedCommand := by
  unfold Obligations.StepRunsTheDecodedCommand
  refine ⟨fun s w i rest hd => step_facing_cmd_of_decode hd s rest, fun s w i hd => ?_⟩
  rw [withFetchWord_eq_facing, step_facing_cmd_of_decode hd]

/-- Settles O19, by the outcome of the prologue and then of the decoder. -/
theorem checksRunInOrder : Obligations.ChecksRunInOrder := by
  unfold Obligations.ChecksRunInOrder
  refine ⟨fun s op n rest hn => step_issue_of_gt (facing_schedule s _) hn, fun s w rest => ?_⟩
  rcases prologue_cases s with ⟨hc, hp⟩ | ⟨hc, hr, hp⟩ | ⟨hc, hr, -⟩
  · rw [if_pos hc, step_facing_cmd_of_prologue hp]
  · rw [if_neg (by simp [hc]), if_pos hr, step_facing_cmd_of_prologue hp]
  · rw [if_neg (by simp [hc]), if_neg (by simp [hr])]
    by_cases hill : rsvdField w ≠ 0 ∨ opField w = 6 ∨ opField w = 7
    · exact (step_facing_cmd_of_illegal hc hr hill rest).trans (if_pos hill).symm
    · obtain ⟨hrsvd, op, hop⟩ := fields_of_not_illegal hill
      refine (step_facing_cmd_of_decode (decode_of_op hrsvd hop) s rest).trans (Eq.trans ?_ (if_neg hill).symm)
      change w.extractLsb' 8 3 = op.number at hop
      rw [hop]
      cases op <;> rfl

/-- Settles O20: `answerTo` is the response to any word. -/
theorem everyWordGetsOneResponse : Obligations.EveryWordGetsOneResponse :=
  fun s w rest => ⟨_, step_facing_cmd s w rest⟩

/-- Settles O22: only answers to words stand on `rsp` (`exists_answerTo_of_rsp`), with the codes of `answerTo_code`. -/
theorem codesOnTheResponsePort : Obligations.CodesOnTheResponsePort := by
  unfold Obligations.CodesOnTheResponsePort
  refine ⟨⟨rfl, rfl, rfl, rfl⟩, fun s t r h hr => ?_, fun s i hc hr => ⟨_, exec_ok hc hr i⟩⟩
  obtain ⟨w, u, rfl⟩ := exists_answerTo_of_rsp h hr
  exact answerTo_code w u

/-- Settles O25: a call in range is the step of its word, on the operand's own byte. -/
theorem boundaryRejectsWideOperands : Obligations.BoundaryRejectsWideOperands := by
  unfold Obligations.BoundaryRejectsWideOperands
  refine fun s op n rest => ⟨fun hn => step_issue_of_gt (facing_schedule s _) hn, fun hn =>
    ⟨BitVec.ofNat 8 n, Nat.mod_eq_of_lt (by omega), ?_⟩⟩
  rw [step_issue_of_le (facing_schedule s _) hn, step_facing_cmd]
  rfl

/-- Settles O26: the response is all that a word leaves, and the next step takes it away (`step_respond_taking`). -/
theorem commandLeavesNoTrace : Obligations.CommandLeavesNoTrace :=
  fun s w rest => ⟨_, step_facing_cmd s w rest, step_respond_taking _ s rest⟩

/-- Settles O27, by induction on the words (`steps_words`). -/
theorem commandsAreIndependentOfHistory : Obligations.CommandsAreIndependentOfHistory := steps_words

end Sys2Proof
end

section
/-! The tables and the laws of the stages: validity as bijectivity, the inverse tables as the only ones, the bit sums
as an OR, and the number of 1 bits; then the statements O34, O35, O36, O45 to O50 and O53. -/

namespace Sys2Proof.Machine

/-! Validity (R83, R102). -/

/-- On as many entries as there are values, no value appears twice exactly when each appears exactly once. -/
theorem noRepeat_iff_eachOnce {n w : Nat} (hn : n = 2 ^ w) (f : Fin n → BitVec w) :
    (∀ i j, i ≠ j → f i ≠ f j) ↔ ∀ v, ∃ i, f i = v ∧ ∀ j, f j = v → j = i := by
  have hcard : Fintype.card (Fin n) = Fintype.card (BitVec w) := by
    rw [Fintype.card_fin, hn, ← FinEnum.card_eq_fintypeCard, FinEnum.card_bitVec]
  calc (∀ i j, i ≠ j → f i ≠ f j)
    _ ↔ Function.Injective f := Function.injective_iff_pairwise_ne.symm
    _ ↔ Function.Bijective f := by rw [Fintype.bijective_iff_injective_and_card, and_iff_left hcard]
    _ ↔ ∀ v, ∃ i, f i = v ∧ ∀ j, f j = v → j = i := Function.bijective_iff_existsUnique f

theorem validS_iff_noRepeat (T : STable) : validS T = true ↔ ∀ i j : Fin 16, i ≠ j → T[i.val] ≠ T[j.val] :=
  decide_eq_true_iff

theorem validP_iff_noRepeat (P : PTable) : validP P = true ↔ ∀ i j : Fin 8, i ≠ j → P[i.val] ≠ P[j.val] :=
  decide_eq_true_iff

/-! The inverse tables (R85). -/

/-- What another table undoes is valid. -/
theorem validS_of_inverse {T U : STable} (h : ∀ x, readS U (readS T x) = x) : validS T = true :=
  (validS_iff T).mpr fun _ _ hxy => Function.LeftInverse.injective (g := readS U) h hxy

theorem validP_of_inverse {P Q : PTable} (h : ∀ i, readP Q (readP P i) = i) : validP P = true :=
  (validP_iff P).mpr fun _ _ hij => Function.LeftInverse.injective (g := readP Q) h hij

theorem readP_inverse_unique {P Q R : PTable} (hQ : ∀ i, readP Q (readP P i) = i)
    (hR : ∀ i, readP R (readP P i) = i) : Q = R := by
  refine Vector.ext fun i hi => ?_
  have hy : readP P (readP Q (BitVec.ofFin ⟨i, hi⟩)) = BitVec.ofFin ⟨i, hi⟩ := readP_readP_of_inverse hQ _
  calc readP Q (BitVec.ofFin ⟨i, hi⟩) = readP R (readP P (readP Q (BitVec.ofFin ⟨i, hi⟩))) := (hR _).symm
    _ = readP R (BitVec.ofFin ⟨i, hi⟩) := by rw [hy]

/-- Under the phase laws the prologue stops every word outside phase READY. -/
theorem Inv.exists_prologue_error {s : State} (h : Inv s) (hst : s.status ≠ 0x01) : ∃ e, prologue s = some e := by
  rcases prologue_cases s with ⟨-, hp⟩ | ⟨-, -, hp⟩ | ⟨-, hr, -⟩
  · exact ⟨_, hp⟩
  · exact ⟨_, hp⟩
  · exact absurd (h.status_of_ready hr) hst

/-! The lanes of the substitution stage (R86). -/

theorem nibHi_subst_append (T : STable) (h l : Nibble) : nibHi (subst T (h ++ l)) = readS T h := by
  rw [nibHi_subst, nibHi_append]

theorem nibLo_subst_append (T : STable) (h l : Nibble) : nibLo (subst T (h ++ l)) = readS T l := by
  rw [nibLo_subst, nibLo_append]

/-! The inverse stages from the other side (R88, R107). -/

/-- The gather undoes the scatter of the same rule. -/
theorem perm_unperm_of_inverse {P Q : PTable} (h : ∀ i, readP Q (readP P i) = i) (c : Byte) :
    perm P (unperm P c) = c := by
  have h' : ∀ i, readP P (readP Q i) = i := readP_readP_of_inverse h
  rw [unperm_eq_perm_of_inverse h, ← unperm_eq_perm_of_inverse h', unperm_perm_of_inverse h']

/-- ENC undoes DEC: the substitution stage comes off first, then the permutation stage (R123). -/
theorem pureResult_enc_dec {s : State} (h : Inv s) (hst : s.status = 0x01) (c : Byte) :
    pureResult (.enc (pureResult (.dec c) s)) s = c := by
  have hS := readS_readS_of_inverse (h.ready_sinv hst)
  calc perm s.pbox (subst s.sbox (subst s.sinv (unperm s.pbox c)))
    _ = perm s.pbox (unperm s.pbox c) := by rw [subst_subst_of_inverse hS]
    _ = c := perm_unperm_of_inverse (h.ready_pinv hst) c

/-! A rule with an inverse as a permutation of the bit positions (R105, R106). -/

/-- Position i goes to `P[i]` and comes back by the inverse rule. -/
def posPerm {P Q : PTable} (h : ∀ i, readP Q (readP P i) = i) : Equiv.Perm (Fin 8) where
  toFun i := P[i.val].toFin
  invFun j := Q[j.val].toFin
  left_inv i := congrArg BitVec.toFin (h (BitVec.ofFin i))
  right_inv j := congrArg BitVec.toFin (readP_readP_of_inverse h (BitVec.ofFin j))

theorem posPerm_val {P Q : PTable} (h : ∀ i, readP Q (readP P i) = i) (i : Fin 8) :
    (posPerm h i).val = P[i.val].toNat := rfl

theorem inverse_entry {P Q : PTable} (h : ∀ i, readP Q (readP P i) = i) (i : Fin 8) :
    (Q[P[i.val].toNat]'P[i.val].isLt).toNat = i.val :=
  congrArg BitVec.toNat (h (BitVec.ofFin i))

/-- Eight bits, each at its own position: the sum is the OR of the terms. -/
theorem sum_eq_or_of_bits (f : Fin 8 → Bool) : ((List.finRange 8).map fun i => (f i).toNat <<< i.val).sum =
    (List.finRange 8).foldl (fun acc i => acc ||| ((f i).toNat <<< i.val)) 0 := by
  have key : ∀ c0 c1 c2 c3 c4 c5 c6 c7 : Bool,
      [c0.toNat <<< 0, c1.toNat <<< 1, c2.toNat <<< 2, c3.toNat <<< 3, c4.toNat <<< 4, c5.toNat <<< 5,
        c6.toNat <<< 6, c7.toNat <<< 7].sum =
      0 ||| c0.toNat <<< 0 ||| c1.toNat <<< 1 ||| c2.toNat <<< 2 ||| c3.toNat <<< 3 ||| c4.toNat <<< 4 |||
        c5.toNat <<< 5 ||| c6.toNat <<< 6 ||| c7.toNat <<< 7 := by decide
  exact key (f 0) (f 1) (f 2) (f 3) (f 4) (f 5) (f 6) (f 7)

theorem permSum_lt (P : PTable) (b : Byte) : permSum P b < 256 := by
  rw [permSum_eq]
  exact (sum_of_bits fun i => b.getLsbD P[i.val].toNat).1

theorem permSum_eq_or (P : PTable) (b : Byte) : permSum P b =
    (List.finRange 8).foldl (fun acc i => acc ||| ((b.getLsbD P[i.val].toNat).toNat <<< i.val)) 0 := by
  rw [permSum_eq, sum_eq_or_of_bits]

/-- An OR does not depend on the order of its terms. -/
theorem foldl_or_perm (σ : Equiv.Perm (Fin 8)) (g : Fin 8 → Nat) :
    (List.finRange 8).foldl (fun acc i => acc ||| g (σ i)) 0 = (List.finRange 8).foldl (fun acc j => acc ||| g j) 0 := by
  have hcomm : RightCommutative fun (acc : Nat) (j : Fin 8) => acc ||| g j := ⟨fun a i j => Nat.or_right_comm a _ _⟩
  calc (List.finRange 8).foldl (fun acc i => acc ||| g (σ i)) 0
    _ = ((List.finRange 8).map σ).foldl (fun acc j => acc ||| g j) 0 := List.foldl_map.symm
    _ = (List.finRange 8).foldl (fun acc j => acc ||| g j) 0 := σ.map_finRange_perm.foldl_eq 0

/-- The scatter's sum is the gather's by the inverse rule, and so is its OR. -/
theorem unpermSum_eq_or {P Q : PTable} (h : ∀ i, readP Q (readP P i) = i) (c : Byte) : unpermSum P c =
    (List.finRange 8).foldl (fun acc i => acc ||| ((c.getLsbD i.val).toNat <<< P[i.val].toNat)) 0 := by
  have hmoved := foldl_or_perm (posPerm h) fun j => (c.getLsbD Q[j.val].toNat).toNat <<< j.val
  simp only [posPerm_val, inverse_entry h] at hmoved
  rw [unpermSum_eq_of_inverse h, permSum_eq_or, ← hmoved]

/-- A gather by a rule with an inverse keeps the number of 1 bits. -/
theorem ones_perm {P Q : PTable} (h : ∀ i, readP Q (readP P i) = i) (b : Byte) : ones (perm P b) = ones b := by
  calc ones (perm P b)
    _ = (List.finRange 8).countP fun i => b.getLsbD (posPerm h i).val := by simp only [ones, perm_bit, posPerm_val]
    _ = ((List.finRange 8).map (posPerm h)).countP fun j => b.getLsbD j.val := List.countP_map.symm
    _ = ones b := (posPerm h).map_finRange_perm.countP_eq _

/-- A byte of eight equal bits is the same after any gather. -/
theorem perm_eq_self_of_bits_eq (P : PTable) {b : Byte} {v : Bool} (hb : ∀ i < 8, b.getLsbD i = v) : perm P b = b := by
  refine BitVec.eq_of_getLsbD_eq fun i hi => ?_
  rw [perm_bit P b ⟨i, hi⟩, hb _ P[i].isLt, hb i hi]

theorem perm_00 (P : PTable) : perm P 0x00 = 0x00 := perm_eq_self_of_bits_eq P (v := false) (by decide)

theorem perm_FF (P : PTable) : perm P 0xFF = 0xFF := perm_eq_self_of_bits_eq P (v := true) (by decide)

end Sys2Proof.Machine

namespace Sys2Proof
open Machine

/-! The statements. -/

/-- Settles O34: a table has as many entries as values (`noRepeat_iff_eachOnce`). -/
theorem validityIsBijection : Obligations.ValidityIsBijection := by
  unfold Obligations.ValidityIsBijection
  refine ⟨fun T => ⟨validS_iff_noRepeat T, ?_⟩, fun P => ⟨validP_iff_noRepeat P, ?_⟩⟩
  · exact (validS_iff_noRepeat T).trans (noRepeat_iff_eachOnce rfl fun i : Fin 16 => T[i.val])
  · exact (validP_iff_noRepeat P).trans (noRepeat_iff_eachOnce rfl fun i : Fin 8 => P[i.val])

/-- Settles O35: on finitely many entries the phase laws' one-sided inverse is two-sided, unique and valid. -/
theorem inverseTablesAreTheInverses : Obligations.InverseTablesAreTheInverses := by
  unfold Obligations.InverseTablesAreTheInverses
  intro s hinv hst
  have hS := hinv.ready_sinv hst
  have hP := hinv.ready_pinv hst
  have hS' := readS_readS_of_inverse hS
  have hP' := readP_readP_of_inverse hP
  exact ⟨⟨hS, hS', fun U hU => readS_inverse_unique hU hS, validS_of_inverse hS'⟩,
    hP, hP', fun Q hQ => readP_inverse_unique hQ hP, validP_of_inverse hP'⟩

/-- Settles O36: the generated inverse is the only one, and outside phase READY the prologue answers. -/
theorem unspecifiedTablesAreNeverObserved : Obligations.UnspecifiedTablesAreNeverObserved := by
  unfold Obligations.UnspecifiedTablesAreNeverObserved
  refine ⟨fun T old old' hT => readS_inverse_unique (genSinv_readS hT old) (genSinv_readS hT old'),
    fun P old old' hP => readP_inverse_unique (genPinv_readP hP old) (genPinv_readP hP old'),
    fun s U Q w rest hinv hst => ?_⟩
  obtain ⟨e, hp⟩ := hinv.exists_prologue_error hst
  exact ⟨.error e, _, _, step_facing_cmd_of_prologue hp w rest, rfl,
    step_facing_cmd_of_prologue (s := { s with sinv := U, pinv := Q }) hp w rest, rfl⟩

/-- Settles O45: each output nibble is the table entry of its own input nibble. -/
theorem lanesAreIndependent : Obligations.LanesAreIndependent := by
  unfold Obligations.LanesAreIndependent
  intro s h l h' l' i hi hc hr
  have hlanes (T : STable) : nibHi (subst T (h ++ l')) = nibHi (subst T (h ++ l)) ∧
      nibLo (subst T (h' ++ l)) = nibLo (subst T (h ++ l)) := by
    simp only [nibHi_subst_append, nibLo_subst_append, and_self]
  refine ⟨_, _, _, resultOf_ok hc hr _, resultOf_ok hc hr _, resultOf_ok hc hr _, ?_⟩
  rcases hi with rfl | rfl
  · exact hlanes s.sbox
  · exact hlanes s.sinv

/-- Settles O46: SINV and SBOX undo each other on nibbles, so on bytes. -/
theorem subAndInvsubAreInverse : Obligations.SubAndInvsubAreInverse := by
  unfold Obligations.SubAndInvsubAreInverse
  intro s b hinv hst
  have hS := hinv.ready_sinv hst
  refine ⟨⟨_, resultOf_ready hst (.sub b), ?_⟩, _, resultOf_ready hst (.invsub b), ?_⟩ <;> rw [resultOf_ready hst]
  · exact congrArg some (subst_subst_of_inverse hS b)
  · exact congrArg some (subst_subst_of_inverse (readS_readS_of_inverse hS) b)

/-- Settles O47: scatter and gather by the same rule undo each other. -/
theorem permAndInvpermAreInverse : Obligations.PermAndInvpermAreInverse := by
  unfold Obligations.PermAndInvpermAreInverse
  intro s b hinv hst
  have hP := hinv.ready_pinv hst
  refine ⟨⟨_, resultOf_ready hst (.perm b), ?_⟩, _, resultOf_ready hst (.invperm b), ?_⟩ <;> rw [resultOf_ready hst]
  · exact congrArg some (unperm_perm_of_inverse hP b)
  · exact congrArg some (perm_unperm_of_inverse hP b)

/-- Settles O48: a scatter is the gather by the inverse rule. -/
theorem invpermEqualsGatherThroughPinv : Obligations.InvpermEqualsGatherThroughPinv := by
  unfold Obligations.InvpermEqualsGatherThroughPinv
  intro s c hinv hst
  rw [exec_ready hst, pureResult, unperm_eq_perm_of_inverse (hinv.ready_pinv hst)]

/-- Settles O49: the terms are bits, each at a place of its own; the scatter's places are those of the inverse rule. -/
theorem bitSumsNeverCarry : Obligations.BitSumsNeverCarry := by
  unfold Obligations.BitSumsNeverCarry
  simp only [shift_and_one]
  refine ⟨fun P b => ⟨permSum_lt P b, permSum_eq_or P b⟩, fun P c hP => ?_⟩
  have h := genPinv_readP hP P
  refine ⟨?_, unpermSum_eq_or h c⟩
  rw [unpermSum_eq_of_inverse h]
  exact permSum_lt _ c

/-- Settles O50: both are gathers by a rule with an inverse, which only move the bits (`ones_perm`). -/
theorem permAndInvpermKeepTheOnes : Obligations.PermAndInvpermKeepTheOnes := by
  unfold Obligations.PermAndInvpermKeepTheOnes
  intro s b hinv hst
  have hP := hinv.ready_pinv hst
  refine ⟨⟨_, resultOf_ready hst _, ones_perm hP b⟩, ⟨_, resultOf_ready hst _, ?_⟩, ?_⟩
  · rw [pureResult, unperm_eq_perm_of_inverse hP, ones_perm (readP_readP_of_inverse hP)]
  · simp only [resultOf_ready hst, pureResult, unperm_eq_perm_of_inverse hP, perm_00, perm_FF, and_self]

/-- Settles O53: `pureResult_enc_dec` and `pureResult_dec_enc`, and a function with an inverse is a bijection. -/
theorem encAndDecAreMutuallyInverseBijections : Obligations.EncAndDecAreMutuallyInverseBijections := by
  unfold Obligations.EncAndDecAreMutuallyInverseBijections
  intro s hinv hst
  have hencdec := pureResult_enc_dec hinv hst
  have hdecenc := pureResult_dec_enc hinv hst
  exact ⟨fun b => pureResult (.enc b) s, fun c => pureResult (.dec c) s, fun b => resultOf_ready hst (.enc b),
    fun c => resultOf_ready hst (.dec c), hencdec, hdecenc,
    Function.bijective_iff_has_inverse.mpr ⟨fun c => pureResult (.dec c) s, hdecenc, hencdec⟩,
    Function.bijective_iff_has_inverse.mpr ⟨fun b => pureResult (.enc b) s, hencdec, hdecenc⟩⟩

end Sys2Proof
end
